-- ==== Sys2Proof/Word.lean ====
section
/-! DEFINITION. The value types of the easytron BVME (00_scope.md R6, R7; 10_state.md R18). -/

namespace Sys2Proof

/-- A byte: bit 7 is the most significant, bit 0 the least (00_scope.md R7). -/
abbrev Byte := BitVec 8

/-- A finite sequence of bytes, position 0 first (00_scope.md R7). -/
abbrev ByteSeq := List Byte

/-- The spec's BitVector: a finite sequence of bits, position 0 first (the front, the left).
Its length is exact and positions at or beyond it do not exist (10_state.md R18).
Not a fixed-width machine word: the numeric ports and STATUS use `BitVec` for that. -/
abbrev Bits := List Bool

/-- The 32 bytes a digest always has (00_scope.md R6, DIGEST_BYTES). -/
abbrev Digest := Vector Byte 32

end Sys2Proof
end

