-- ==== Sys2Proof/Config.lean ====
section
/-! DEFINITION. What is fixed for the life of the machine (10_state.md R21) and the free values.
Every `opaque` constant has no body: nothing in Lean can evaluate it, so what is proved about the
machine holds whatever it is. -/

namespace Sys2Proof

/-! ## The word type (00_scope.md R6) -/

/-- FREE VALUE: how many different words the platform's word type has, before it is brought within
R6: `none` is "without end" (log 1). -/
opaque Config.rawWordCount : Option Nat

/-- Whether the word type has a word of this number. The numbers below 2048 always name words, since the
parameter `DICT` of R6 is a list of 2048 different ones; whether any other does is open (log 1). -/
def Config.isWord (n : Nat) : Bool :=
  decide (n < 2048) ||
  match Config.rawWordCount with
  | none => true
  | some count => decide (n < count)

/-- One mnemonic word, an OPEN type with decidable equality (00_scope.md R6). A word is known by a
number and by nothing else: the engine moves words whole and compares them for exact equality
(20_memory.md R31), so every word type whose values can be written out, strings among them, is this
one under some choice of `Config.rawWordCount` (log 1). -/
structure Word where
  number : Nat
  isWord : Config.isWord number = true
deriving DecidableEq, Repr

/-- The word of a number below 2048, one that every platform has. -/
def Word.ofIndex (n : Nat) (h : n < 2048) : Word := ⟨n, by simp [Config.isWord, h]⟩

/-- A finite sequence of words (00_scope.md R7). -/
abbrev Sentence := List Word

/-! ## Capacities, scratch, free values -/

/-- The three port capacities (00_scope.md R6): `none` is "unbounded". -/
structure Caps where
  bv  : Option Nat    -- BV_CAP, bits of a BitVector port
  by_ : Option Nat    -- BY_CAP, bytes of a byte-sequence port
  se  : Option Nat    -- SE_CAP, words of a sentence port
deriving DecidableEq, Repr, Inhabited

/-- The scratch registers and the loop counter of the sequencer (10_state.md R14, R17). -/
structure Scratch where
  i    : Nat        -- I, the loop counter of E5 and D2
  s    : Bits       -- S, the working vector
  c    : Bits       -- C, the current chunk
  k    : Nat        -- K, checksum_len
  wc   : Nat        -- WC, word_count
  outs : Sentence   -- OUTS, the sentence being built
  outb : ByteSeq    -- OUTB, the bytes being built
deriving DecidableEq, Repr, Inhabited

namespace Config

/-- DIGEST (00_scope.md R6, 93_implementation_defined.md U8): a total function to 32 bytes, of which
nothing else is assumed (log 2). -/
opaque digest : ByteSeq → Digest

/-- The platform's choice of capacities before it is brought within the bounds of R6 (log 3). -/
opaque rawCaps : Caps

/-- Brings a choice of capacities within R6: a finite BV_CAP lies in 264..65535, a finite BY_CAP is
at least 32 and BV_CAP div 8 and is unbounded if BV_CAP is, a finite SE_CAP is at least 2048, none
exceeds 65535. It leaves every legal choice as it is, so nothing R6 allows is lost (log 3). -/
def clampCaps (c : Caps) : Caps where
  bv  := c.bv.map fun b => max 264 (min b 65535)
  by_ := match c.bv with
    | none => none
    | some b => c.by_.map fun y => max (max 32 (max 264 (min b 65535) / 8)) (min y 65535)
  se  := c.se.map fun w => max 2048 (min w 65535)

/-- FREE VALUE: the scratch registers between transactions hold unspecified values (10_state.md R17,
93_implementation_defined.md U15); the argument is the model's counter `State.txn` (log 7). -/
opaque freeScratch : Nat → Scratch

/-- FREE VALUE: what ST holds after a reset event, "unspecified until the first transaction ends"
(10_state.md R22); the argument is the model's counter `State.txn` (log 11). -/
opaque freeSt : Nat → BitVec 4

end Config

/-- The parameters a transaction asks (00_scope.md R6). The operations take them as an argument, so
that a small concrete choice can stand in a test; the machine itself always uses `Config.env`. -/
structure Env where
  digest : ByteSeq → Digest
  caps   : Caps

/-- The machine's own parameters. -/
def Config.env : Env where
  digest := Config.digest
  caps   := Config.clampCaps Config.rawCaps

end Sys2Proof
end

