-- ==== Sys2Proof/Syntax.lean ====
section
/-! DEFINITION. The twenty commands (30_encoding.md R46) and the operand ports they read (10_state.md R11). -/

namespace Sys2Proof

/-- One constructor per row of the opcode map (30_encoding.md R46). The command byte holds no register
number, no immediate and no mode bit (R45), so no constructor carries an operand: every operand
travels on a port (R47). -/
inductive Instr where
  | sysRdst      -- SYS.RDST    0x00, R100
  | dictLoad     -- DICT.LOAD   0x01, R101
  | bvAppend     -- BV.APPEND   0x10, R60
  | bvPopf       -- BV.POPF     0x11, R61
  | bvPopb       -- BV.POPB     0x12, R62
  | bvPadl       -- BV.PADL     0x13, R63
  | bbB2bits     -- BB.B2BITS   0x20, R70
  | bbBits2b     -- BB.BITS2B   0x21, R71
  | ckExtract    -- CK.EXTRACT  0x30, R75
  | ckCompute    -- CK.COMPUTE  0x31, R76
  | ckSign       -- CK.SIGN     0x32, R77
  | ckValidate   -- CK.VALIDATE 0x33, R78
  | mnChklen     -- MN.CHKLEN   0x40, R85
  | mnChkwc      -- MN.CHKWC    0x41, R86
  | mnC2i        -- MN.C2I      0x42, R87
  | mnI2c        -- MN.I2C      0x43, R88
  | dictWord     -- DICT.WORD   0x44, R102
  | dictIndex    -- DICT.INDEX  0x45, R103
  | mnEncode     -- MN.ENCODE   0x46, R91
  | mnDecode     -- MN.DECODE   0x47, R92
deriving DecidableEq, Repr, Inhabited

/-- The operand ports, written by the host before a command and never by the engine (10_state.md R11). -/
structure Operands where
  cmd : Byte          -- CMD, the command byte
  va  : Bits          -- VA
  vb  : Bits          -- VB
  n   : BitVec 16     -- N, an unsigned number (30_encoding.md R53)
  by_ : ByteSeq       -- BY
  se  : Sentence      -- SE
  wd  : Word          -- WD
deriving DecidableEq, Repr

end Sys2Proof
end

