-- ==== Sys2Proof/WellFormed.lean ====
section
/-! DEFINITION. Well-formed capacities, operands and instructions. -/

namespace Sys2Proof

/-- A length fits a capacity: always if it is unbounded (00_scope.md R6). -/
def Caps.holds (cap : Option Nat) (len : Nat) : Bool :=
  match cap with
  | none => true
  | some c => decide (len ≤ c)

/-- One capacity at least as large as another. -/
def Caps.atLeast (cap : Option Nat) (low : Nat) : Bool :=
  match cap with
  | none => true
  | some c => decide (low ≤ c) && decide (c ≤ 65535)

/-- The constraints of 00_scope.md R6 on the three capacities. -/
def Caps.wellFormed (c : Caps) : Bool :=
  Caps.atLeast c.bv 264 && Caps.atLeast c.by_ 32 && Caps.atLeast c.se 2048 &&
  (match c.bv with
   | none => c.by_ == none
   | some b => Caps.atLeast c.by_ (b / 8))

/-- "A port cannot carry more than its capacity" (30_encoding.md R51): the operands fit their ports. -/
def Operands.wellFormed (c : Caps) (p : Operands) : Bool :=
  Caps.holds c.bv p.va.length && Caps.holds c.bv p.vb.length &&
  Caps.holds c.by_ p.by_.length && Caps.holds c.se p.se.length

/-- A command byte has no field besides its opcode (30_encoding.md R45), so there is nothing in an
instruction that could be ill-formed: each of the twenty is well-formed. The checks of a whole
request are those of its operands. -/
def Instr.wellFormed (i : Instr) : Bool :=
  match i with
  | .sysRdst | .dictLoad | .bvAppend | .bvPopf | .bvPopb | .bvPadl | .bbB2bits | .bbBits2b
  | .ckExtract | .ckCompute | .ckSign | .ckValidate | .mnChklen | .mnChkwc | .mnC2i | .mnI2c
  | .dictWord | .dictIndex | .mnEncode | .mnDecode => true

end Sys2Proof
end

