-- ==== Sys2Proof/Decode.lean ====
section
/-! DEFINITION. The command byte: decoder, then encoder (30_encoding.md R45, R46, R52). -/

namespace Sys2Proof

/-- Why a command byte is not a command. -/
inductive Reject where
  /-- The byte is none of the twenty of 30_encoding.md R46; the engine answers it with
  Fault(IllegalCommand) (R52). -/
  | illegalCommand
deriving DecidableEq, Repr

/-- FAM, bits 7:4 of the command byte (30_encoding.md R45). -/
def commandFamily (b : Byte) : BitVec 4 := b.extractLsb' 4 4

/-- FN, bits 3:0 of the command byte (30_encoding.md R45). -/
def commandFunction (b : Byte) : BitVec 4 := b.extractLsb' 0 4

/-- Family 0, system and dictionary load (30_encoding.md R45, R46). -/
def decodeSystem (fn : BitVec 4) : Except Reject Instr :=
  match fn with
  | 0x0#4 => .ok .sysRdst
  | 0x1#4 => .ok .dictLoad
  | _ => .error .illegalCommand

/-- Family 1, BitVector. -/
def decodeBitVector (fn : BitVec 4) : Except Reject Instr :=
  match fn with
  | 0x0#4 => .ok .bvAppend
  | 0x1#4 => .ok .bvPopf
  | 0x2#4 => .ok .bvPopb
  | 0x3#4 => .ok .bvPadl
  | _ => .error .illegalCommand

/-- Family 2, ByteBitCodec. -/
def decodeByteBit (fn : BitVec 4) : Except Reject Instr :=
  match fn with
  | 0x0#4 => .ok .bbB2bits
  | 0x1#4 => .ok .bbBits2b
  | _ => .error .illegalCommand

/-- Family 3, ChecksumEngine. -/
def decodeChecksum (fn : BitVec 4) : Except Reject Instr :=
  match fn with
  | 0x0#4 => .ok .ckExtract
  | 0x1#4 => .ok .ckCompute
  | 0x2#4 => .ok .ckSign
  | 0x3#4 => .ok .ckValidate
  | _ => .error .illegalCommand

/-- Family 4, MnemonicCodec and dictionary lookup. -/
def decodeMnemonic (fn : BitVec 4) : Except Reject Instr :=
  match fn with
  | 0x0#4 => .ok .mnChklen
  | 0x1#4 => .ok .mnChkwc
  | 0x2#4 => .ok .mnC2i
  | 0x3#4 => .ok .mnI2c
  | 0x4#4 => .ok .dictWord
  | 0x5#4 => .ok .dictIndex
  | 0x6#4 => .ok .mnEncode
  | 0x7#4 => .ok .mnDecode
  | _ => .error .illegalCommand

/-- The instruction a command byte names, or why it names none (30_encoding.md R46, R52). -/
def decode (b : Byte) : Except Reject Instr :=
  match commandFamily b with
  | 0x0#4 => decodeSystem (commandFunction b)
  | 0x1#4 => decodeBitVector (commandFunction b)
  | 0x2#4 => decodeByteBit (commandFunction b)
  | 0x3#4 => decodeChecksum (commandFunction b)
  | 0x4#4 => decodeMnemonic (commandFunction b)
  | _ => .error .illegalCommand

/-- The command byte of an instruction, from the opcode map (30_encoding.md R46). -/
def encode (i : Instr) : Byte :=
  match i with
  | .sysRdst    => 0x00#8
  | .dictLoad   => 0x01#8
  | .bvAppend   => 0x10#8
  | .bvPopf     => 0x11#8
  | .bvPopb     => 0x12#8
  | .bvPadl     => 0x13#8
  | .bbB2bits   => 0x20#8
  | .bbBits2b   => 0x21#8
  | .ckExtract  => 0x30#8
  | .ckCompute  => 0x31#8
  | .ckSign     => 0x32#8
  | .ckValidate => 0x33#8
  | .mnChklen   => 0x40#8
  | .mnChkwc    => 0x41#8
  | .mnC2i      => 0x42#8
  | .mnI2c      => 0x43#8
  | .dictWord   => 0x44#8
  | .dictIndex  => 0x45#8
  | .mnEncode   => 0x46#8
  | .mnDecode   => 0x47#8

/-- The command byte the table's number `w` of `nbits` bits stands for: a command is one byte
(30_encoding.md R56), bit 0 the least significant; a number of more than 8 bits is none. -/
def tableByte (nbits w : Nat) : Option Byte :=
  if w % 2 ^ nbits < 256 then some (BitVec.ofNat 8 (w % 2 ^ nbits)) else none

/-- What the decoder reads from an instruction whose bits the opcode table numbers `w`. -/
def decodeTableWord (nbits w : Nat) : Option Instr :=
  match tableByte nbits w with
  | none => none
  | some b =>
    match decode b with
    | .ok i => some i
    | .error _ => none

end Sys2Proof
end

