-- ==== Sys2Proof/Machine/State.lean ====
section
/-! DEFINITION. The state of the machine as plain data, and the state after reset (10_state.md). -/

namespace Sys2Proof.Machine

/-- The typed errors Err(E) (60_exceptions.md R106, R107): ordinary ends of a transaction. -/
inductive TypedError where
  | invalidEntropyLength
  | invalidMnemonicWordCount
  | invalidWord
  | invalidChecksum
  | dictInvalid
deriving DecidableEq, Repr

/-- The contract violations Fault(F) (60_exceptions.md R109): the machine takes one as a next state
with the fault latch set (R114). They are the spec's faults; `Fault` below is the model's stop. -/
inductive Violation where
  | indexOutOfRange
  | notByteMultiple
  | dictNotReady
  | dictAlreadyLoaded
  | illegalCommand
  | capacityOverflow
  | chunkTooWide
  | checksumWidth
  | badDigestLength
deriving DecidableEq, Repr

/-- Where the model stops without a next state. Neither can happen in a state that the machine
reaches from reset. -/
inductive Fault where
  /-- Raised by a forward read of a dictionary entry that holds no value while DICT_READY = 1
  (DICT.WORD, MN.ENCODE). Safe: the spec gives an entry no content before DICT.LOAD (10_state.md R22,
  log 8), and a loaded dictionary has all 2048. -/
  | dictEntryUnwritten
  /-- Raised by MN.ENCODE or MN.DECODE when the sequencer is not idle after its bound of steps
  (log 9). Safe: "every transaction ends" (43_mnemonic.md R94), within the bound. -/
  | sequencerOverrun
deriving DecidableEq, Repr

/-- Why the model gives an instruction no meaning. -/
inductive Refusal where
  /-- An instruction of the opcode table without a meaning; raised by `exec` alone. Safe. No arm of
  this model raises it. -/
  | notModelled (mnemonic : String)
deriving DecidableEq, Repr

/-- PH, the sequencer phase (10_state.md R14). -/
inductive Phase where
  | idle
  | e1 | e2 | e3 | e4 | e5 | e6
  | d1 | d2 | d3 | d4 | d5 | d6
deriving DecidableEq, Repr

/-- The data result ports (10_state.md R12). `none` is the spec's "no value". -/
structure Results where
  ra  : Option Bits := none
  rb  : Option Bits := none
  rby : Option ByteSeq := none
  rse : Option Sentence := none
  rwd : Option Word := none
  rn  : Option (BitVec 16) := none
deriving DecidableEq, Repr

/-- The dictionary ROM (10_state.md R19, 20_memory.md R37): entries by index, one Word each. The list
is sorted by index without repeats (`Memory.wf`); an unlisted index holds no value (log 8). -/
abbrev Memory := List (Nat × Word)

/-- The whole state of one engine (10_state.md). -/
structure State where
  ops     : Operands     -- CMD, VA, VB, N, BY, SE, WD (R11)
  st      : BitVec 4     -- ST (R13)
  res     : Results      -- RA, RB, RBY, RSE, RWD, RN (R12)
  status  : BitVec 8     -- STATUS: DICT_READY, FAULT, FREASON (R16)
  dict    : Memory       -- DICT (R19)
  ph      : Phase        -- PH (R14)
  scratch : Scratch      -- I, S, C, K, WC, OUTS, OUTB (R14, R17)
  txn     : Nat          -- the model's own: argument of the free values (log 7)
deriving DecidableEq, Repr

/-- The machine right after reset (10_state.md R22). STATUS, PH and the data result ports have the
values the spec gives; the operand ports (log 4), ST (log 5), I and the scratch (log 6) and the
model's counter (log 7) are DESIGN CHOICES; the dictionary has no contents (log 8). -/
def State.reset : State where
  ops     := { cmd := 0x00#8, va := [], vb := [], n := 0#16, by_ := [], se := [], wd := .ofIndex 0 (by decide) }
  st      := 0#4
  res     := {}
  status  := 0x00#8
  dict    := []
  ph      := .idle
  scratch := { i := 0, s := [], c := [], k := 0, wc := 0, outs := [], outb := [] }
  txn     := 0

/-- What one command comes to before it is written into the state: the three ends of a transaction
(10_state.md R10), and the model's own stop. -/
inductive Txn (α : Type) where
  | ok (a : α)
  | err (e : TypedError)
  | violation (v : Violation)
  | stuck (f : Fault)
deriving DecidableEq, Repr

end Sys2Proof.Machine
end

