-- ==== Sys2Proof/Machine/Flags.lean ====
section
/-! DEFINITION. The status a host can test: the codes of ST and FREASON, and the STATUS register
(10_state.md R13, R15, R16; 30_encoding.md R50, R51). There are no other flags (R15). -/

namespace Sys2Proof.Machine

/-- The ST code of a typed error (30_encoding.md R50). -/
def errorCode (e : TypedError) : BitVec 4 :=
  match e with
  | .invalidEntropyLength     => 1#4
  | .invalidMnemonicWordCount => 2#4
  | .invalidWord              => 3#4
  | .invalidChecksum          => 4#4
  | .dictInvalid              => 5#4

/-- The ST code OK (30_encoding.md R50). -/
def stOk : BitVec 4 := 0#4

/-- The ST code FAULTED (30_encoding.md R50). -/
def stFaulted : BitVec 4 := 15#4

/-- The FREASON code of a contract violation (30_encoding.md R51). -/
def violationCode (v : Violation) : BitVec 4 :=
  match v with
  | .indexOutOfRange   => 1#4
  | .notByteMultiple   => 2#4
  | .dictNotReady      => 3#4
  | .dictAlreadyLoaded => 4#4
  | .illegalCommand    => 5#4
  | .capacityOverflow  => 6#4
  | .chunkTooWide      => 7#4
  | .checksumWidth     => 8#4
  | .badDigestLength   => 9#4

/-- STATUS[0] (10_state.md R16). -/
def statusReady (b : BitVec 8) : Bool := b.getLsbD 0

/-- STATUS[1] (10_state.md R16). -/
def statusFault (b : BitVec 8) : Bool := b.getLsbD 1

/-- STATUS[7:4] (10_state.md R16). -/
def statusReason (b : BitVec 8) : BitVec 4 := b.extractLsb' 4 4

/-- STATUS put together from its fields, bits 3:2 hard-wired to 0 (10_state.md R16). -/
def statusWord (reason : BitVec 4) (fault ready : Bool) : BitVec 8 :=
  reason ++ 0#2 ++ BitVec.ofBool fault ++ BitVec.ofBool ready

/-- STATUS as a read sees it: the reserved bits read as 0 whatever stands there (R16, log 16). -/
def readStatus (s : State) : BitVec 8 :=
  statusWord (statusReason s.status) (statusFault s.status) (statusReady s.status)

/-- DICT_READY. -/
def State.dictReady (s : State) : Bool := statusReady s.status

/-- FAULT. -/
def State.faulted (s : State) : Bool := statusFault s.status

/-- FREASON. -/
def State.freason (s : State) : BitVec 4 := statusReason s.status

/-- DICT_READY <- 1, done by DICT.LOAD alone (10_state.md R15). -/
def State.setReady (s : State) : State :=
  { s with status := statusWord s.freason s.faulted true }

/-- FAULT <- 1 and FREASON <- code(F), DICT_READY unchanged (60_exceptions.md R114). -/
def State.latchFault (s : State) (v : Violation) : State :=
  { s with status := statusWord (violationCode v) true s.dictReady }

end Sys2Proof.Machine
end

