-- ==== Sys2Proof/Machine/Operands.lean ====
section
/-! DEFINITION. The operand ports as a command reads them and the result ports as it writes them
(10_state.md R11, R12; 30_encoding.md R47, R53). Operands come whole from a port: nothing is assembled,
extended, scaled or shifted (R47). -/

namespace Sys2Proof.Machine

/-- P.CMD (10_state.md R11). -/
def portCmd (s : State) : Byte := s.ops.cmd

/-- P.VA. -/
def portVa (s : State) : Bits := s.ops.va

/-- P.VB. -/
def portVb (s : State) : Bits := s.ops.vb

/-- P.N, as the number 0..65535 it carries (30_encoding.md R53). -/
def portN (s : State) : Nat := s.ops.n.toNat

/-- P.BY. -/
def portBy (s : State) : ByteSeq := s.ops.by_

/-- P.SE. -/
def portSe (s : State) : Sentence := s.ops.se

/-- P.WD. -/
def portWd (s : State) : Word := s.ops.wd

/-- RN carries a number of 16 bits (30_encoding.md R53). -/
def numberRn (x : Nat) : BitVec 16 := BitVec.ofNat 16 x

/-- Writes the data result ports: those a command lists get its results, the others hold no value
(10_state.md R12). -/
def State.writeResults (s : State) (r : Results) : State := { s with res := r }

end Sys2Proof.Machine
end

