-- ==== Sys2Proof/Machine/Ops.lean ====
section
/-! DEFINITION. The operations every command is made of: bit sequences as numbers, the dictionary
memory, the ends of a transaction (taking an error, taking a fault, the refusal while faulted), and
the reset event. -/

namespace Sys2Proof.Machine

/-! ## Numbers and bit sequences (00_scope.md R7) -/

/-- `val(v)`, the big-endian unsigned value: position 0 has the highest weight. -/
def val (v : Bits) : Nat := v.foldl (fun acc b => 2 * acc + b.toNat) 0

/-- `bitsN(x)`: the vector of length N whose value is x, for x below 2^N; the low N bits of x. -/
def bitsOf (width x : Nat) : Bits := (List.range width).map fun i => x.testBit (width - 1 - i)

/-- `zeros(n)`. -/
def zeros (n : Nat) : Bits := List.replicate n false

/-! ## Transactions -/

/-- A callee inside a composite: its error or fault is the composite's (00_scope.md R7, `callee(args)`). -/
def Txn.bind {α β : Type} (t : Txn α) (f : α → Txn β) : Txn β :=
  match t with
  | .ok a => f a
  | .err e => .err e
  | .violation v => .violation v
  | .stuck g => .stuck g

/-- `if bad then raise Fault(v)`. -/
def checkNot (bad : Bool) (v : Violation) : Txn Unit :=
  if bad then .violation v else .ok ()

/-- `if not good then return Err(e)`. -/
def require (good : Bool) (e : TypedError) : Txn Unit :=
  if good then .ok () else .err e

/-- A result fits its port or the command raises CapacityOverflow; nothing is truncated
(30_encoding.md R51, 92_eei_decisions.md D7). Every BV_CAP is at least 264 (00_scope.md R6), so what is no
longer fits without a look at the capacity. -/
def fitBits (env : Env) (v : Bits) : Txn Bits :=
  if decide (v.length ≤ 264) || Caps.holds env.caps.bv v.length then .ok v
  else .violation .capacityOverflow

/-! ## The dictionary memory (20_memory.md R30, R31) -/

/-- MemWrite(DICT, idx, w), keeping the list sorted by index. -/
def Memory.write (m : Memory) (idx : Nat) (w : Word) : Memory :=
  match m with
  | [] => [(idx, w)]
  | (j, x) :: rest =>
    if idx < j then (idx, w) :: (j, x) :: rest
    else if idx = j then (idx, w) :: rest
    else (j, x) :: Memory.write rest idx w

/-- What an index holds; `none` is no value. -/
def Memory.read (m : Memory) (idx : Nat) : Option Word :=
  match m with
  | [] => none
  | (j, x) :: rest => if idx = j then some x else Memory.read rest idx

/-- MemFind(DICT, w): the index that holds `w`, if one does (20_memory.md R31). -/
def Memory.find (m : Memory) (w : Word) : Option Nat :=
  match m with
  | [] => none
  | (j, x) :: rest => if x = w then some j else Memory.find rest w

/-- The loop of DICT.LOAD: the words of a list at consecutive indexes from `idx` on
(44_dictionary_system.md R101). The writes go to different indexes, so their order does not show. -/
def Memory.writeAll (m : Memory) (idx : Nat) (ws : List Word) : Memory :=
  match ws with
  | [] => m
  | w :: rest => Memory.write (Memory.writeAll m (idx + 1) rest) idx w

/-- The canonical form: indexes strictly rising, every one below 2048 (20_memory.md R37), no entry
without a value. -/
def Memory.wf (m : Memory) : Bool :=
  decide ((m.map Prod.fst).Pairwise (· < ·)) && m.all fun c => decide (c.1 < 2048)

/-- MemRead(DICT, idx) as a command does it: an index of 2048 or more addresses nothing and raises
IndexOutOfRange (20_memory.md R30). -/
def readEntry (m : Memory) (idx : Nat) : Txn Word :=
  if 2048 ≤ idx then .violation .indexOutOfRange
  else match Memory.read m idx with
    | some w => .ok w
    | none => .stuck .dictEntryUnwritten

/-- The readiness test of the dictionary readers (70_reset_and_hazards.md R127). -/
def requireReady (s : State) : Txn Unit := checkNot (!s.dictReady) .dictNotReady

/-! ## The ends of a transaction (60_exceptions.md) -/

/-- What every end of a transaction does: ST and the data result ports are written, PH returns to
IDLE, and the scratch is discarded, holding free values from here on (10_state.md R13, R14, R17; log 7). -/
def endTransaction (s : State) (st : BitVec 4) (r : Results) : State :=
  { s with
    st := st, res := r, ph := .idle
    scratch := Config.freeScratch s.txn, txn := s.txn + 1 }

/-- `Ok`: ST <- 0, the results stand on their ports (10_state.md R12, R13). -/
def takeOk (s : State) : State := endTransaction s stOk s.res

/-- TAKING AN ERROR (60_exceptions.md R113): ST <- code(E), no data result, STATUS and DICT unchanged. -/
def takeError (s : State) (e : TypedError) : State := endTransaction s (errorCode e) {}

/-- TAKING A FAULT (60_exceptions.md R114): ST <- 15, no data result, FAULT <- 1, FREASON <- code(F),
DICT and DICT_READY unchanged. There is no handler and no return from one (R115). -/
def takeFault (s : State) (v : Violation) : State := endTransaction (s.latchFault v) stFaulted {}

/-- A command presented while FAULT = 1 (60_exceptions.md R114, 30_encoding.md R52): ST <- 15, no result
(log 17), nothing else. -/
def refuseLatched (s : State) : State := endTransaction s stFaulted {}

/-- Ends a transaction that began in `s`: an error or a fault leaves nothing of what the command did
(60_exceptions.md R112). -/
def settle (s : State) (t : Txn State) : Host.Outcome State Fault Refusal :=
  match t with
  | .ok u => .next (takeOk u)
  | .err e => .next (takeError s e)
  | .violation v => .next (takeFault s v)
  | .stuck f => .fault f

/-- A command other than SYS.RDST: the fault latch is tested before everything else
(60_exceptions.md R111 item 1). -/
def perform (s : State) (t : Txn State) : Host.Outcome State Fault Refusal :=
  if s.faulted then .next (refuseLatched s) else settle s t

/-- A command byte that is none of the twenty (30_encoding.md R52; 60_exceptions.md R111 items 1 and 2). -/
def performIllegal (s : State) : Host.Outcome State Fault Refusal :=
  perform s (.violation .illegalCommand)

/-! ## The reset event (70_reset_and_hazards.md R125) -/

/-- The effect of reset (10_state.md R22), for any value of the two things R22 leaves unspecified: ST
and the scratch. The operand ports belong to the host and stay. -/
def State.afterReset (s : State) (st : BitVec 4) (scratch : Scratch) : State :=
  { s with
    st := st, res := {}, status := 0x00#8, dict := [], ph := .idle
    scratch := scratch, txn := s.txn + 1 }

/-- The platform's reset event, ST and scratch free (log 11). -/
def State.platformReset (s : State) : State :=
  s.afterReset (Config.freeSt s.txn) (Config.freeScratch s.txn)

end Sys2Proof.Machine
end

