-- ==== Sys2Proof/Machine/BitVector.lean ====
section
/-! DEFINITION. The BV family (40_bitvector.md R60 to R63). -/

namespace Sys2Proof.Machine

/-- APPEND(a, b) (40_bitvector.md R60). -/
def append (env : Env) (a b : Bits) : Txn Bits := fitBits env (a ++ b)

/-- BV.APPEND (40_bitvector.md R60). -/
def execBvAppend (s : State) : Host.Outcome State Fault Refusal :=
  perform s <| (append Config.env (portVa s) (portVb s)).bind fun r =>
    .ok (s.writeResults { ra := some r })

/-- POPF(v, n) = (popped, remainder) (40_bitvector.md R61). -/
def popFront (v : Bits) (n : Nat) : Txn (Bits × Bits) :=
  (checkNot (decide (v.length < n)) .indexOutOfRange).bind fun _ =>
  .ok (v.take n, v.drop n)

/-- BV.POPF (40_bitvector.md R61): RA the popped bits, RB the remainder. -/
def execBvPopf (s : State) : Host.Outcome State Fault Refusal :=
  perform s <| (popFront (portVa s) (portN s)).bind fun r =>
    .ok (s.writeResults { ra := some r.1, rb := some r.2 })

/-- POPB(v, n) = (prefix, suffix) (40_bitvector.md R62). -/
def popBack (v : Bits) (n : Nat) : Txn (Bits × Bits) :=
  (checkNot (decide (v.length < n)) .indexOutOfRange).bind fun _ =>
  .ok (v.take (v.length - n), v.drop (v.length - n))

/-- BV.POPB (40_bitvector.md R62): RA the prefix, RB the last n bits. -/
def execBvPopb (s : State) : Host.Outcome State Fault Refusal :=
  perform s <| (popBack (portVa s) (portN s)).bind fun r =>
    .ok (s.writeResults { ra := some r.1, rb := some r.2 })

/-- PADL(v, t) (40_bitvector.md R63): zeros on the left up to the target; never truncates. -/
def padLeft (env : Env) (v : Bits) (target : Nat) : Txn Bits :=
  if v.length < target then fitBits env (zeros (target - v.length) ++ v) else .ok v

/-- BV.PADL (40_bitvector.md R63). -/
def execBvPadl (s : State) : Host.Outcome State Fault Refusal :=
  perform s <| (padLeft Config.env (portVa s) (portN s)).bind fun r =>
    .ok (s.writeResults { ra := some r })

end Sys2Proof.Machine
end

