-- ==== Sys2Proof/Machine/ByteBit.lean ====
section
/-! DEFINITION. The BB family (41_bytebit.md R70, R71; bit order 20_memory.md R32). -/

namespace Sys2Proof.Machine

/-- The eight bits of a byte, bit 7 first (20_memory.md R32). -/
def byteToBits (b : Byte) : Bits := bitsOf 8 b.toNat

/-- B2BITS(d): byte 0 first, each byte most significant bit first (41_bytebit.md R70). -/
def bytesToBits (d : ByteSeq) : Bits := d.flatMap byteToBits

/-- BB.B2BITS (41_bytebit.md R70). -/
def execBbB2bits (s : State) : Host.Outcome State Fault Refusal :=
  perform s <| (fitBits Config.env (bytesToBits (portBy s))).bind fun r =>
    .ok (s.writeResults { ra := some r })

/-- The first `count` groups of eight bits as bytes, the first bit of a group weighing 128
(41_bytebit.md R71). -/
def octets (count : Nat) (v : Bits) : ByteSeq :=
  match count with
  | 0 => []
  | k + 1 => BitVec.ofNat 8 (val (v.take 8)) :: octets k (v.drop 8)

/-- BITS2B(v): NotByteMultiple unless the length is a multiple of 8; no padding (41_bytebit.md R71). -/
def bitsToBytes (v : Bits) : Txn ByteSeq :=
  (checkNot (decide (v.length % 8 ≠ 0)) .notByteMultiple).bind fun _ =>
  .ok (octets (v.length / 8) v)

/-- BB.BITS2B (41_bytebit.md R71). -/
def execBbBits2b (s : State) : Host.Outcome State Fault Refusal :=
  perform s <| (bitsToBytes (portVa s)).bind fun r =>
    .ok (s.writeResults { rby := some r })

end Sys2Proof.Machine
end

