-- ==== Sys2Proof/Machine/Checksum.lean ====
section
/-! DEFINITION. The CK family (42_checksum.md R75 to R78). The checksum is the LAST k bits of the
digest's first byte (90_conflicts.md C1). -/

namespace Sys2Proof.Machine

/-- The last k bits of a digest's first byte, all 8 if k is 8 or more (42_checksum.md R75). -/
def lastBits (first : Byte) (k : Nat) : Bits :=
  if k < 8 then (byteToBits first).drop (8 - k) else byteToBits first

/-- EXTRACT(g, k) on a byte sequence: BadDigestLength unless it has 32 bytes (42_checksum.md R75). -/
def extract (g : ByteSeq) (k : Nat) : Txn Bits :=
  match g with
  | first :: _ => if g.length = 32 then .ok (lastBits first k) else .violation .badDigestLength
  | [] => .violation .badDigestLength

/-- CK.EXTRACT (42_checksum.md R75). -/
def execCkExtract (s : State) : Host.Outcome State Fault Refusal :=
  perform s <| (extract (portBy s) (portN s)).bind fun r =>
    .ok (s.writeResults { ra := some r })

/-- EXTRACT(DIGEST(e), k): "`DIGEST` always returns 32 bytes, so `BadDigestLength` cannot arise"
(42_checksum.md R76); `extractDigest_eq` (Laws/Checksum.lean) says that it is `extract`. -/
def extractDigest (g : Digest) (k : Nat) : Txn Bits := .ok (lastBits g[0] k)

/-- COMPUTE(e) (42_checksum.md R76): one digest, k = (8 len(e)) div 32. -/
def compute (env : Env) (e : ByteSeq) : Txn Bits :=
  extractDigest (env.digest e) ((8 * e.length) / 32)

/-- CK.COMPUTE (42_checksum.md R76). -/
def execCkCompute (s : State) : Host.Outcome State Fault Refusal :=
  perform s <| (compute Config.env (portBy s)).bind fun r =>
    .ok (s.writeResults { ra := some r })

/-- SIGN(e) = B2BITS(e) ++ COMPUTE(e) (42_checksum.md R77). -/
def sign (env : Env) (e : ByteSeq) : Txn Bits :=
  (compute env e).bind fun c => fitBits env (bytesToBits e ++ c)

/-- CK.SIGN (42_checksum.md R77). -/
def execCkSign (s : State) : Host.Outcome State Fault Refusal :=
  perform s <| (sign Config.env (portBy s)).bind fun r =>
    .ok (s.writeResults { ra := some r })

/-- VALIDATE(s) (42_checksum.md R78), in the order of its tests: ChecksumWidth, NotByteMultiple,
InvalidChecksum (60_exceptions.md R111). -/
def validate (env : Env) (v : Bits) : Txn Unit :=
  (checkNot (decide (8 < v.length / 32)) .checksumWidth).bind fun _ =>
  (popBack v (v.length / 32)).bind fun split =>
  (bitsToBytes split.1).bind fun bytes =>
  (extractDigest (env.digest bytes) (v.length / 32)).bind fun recomputed =>
  require (decide (recomputed = split.2)) .invalidChecksum

/-- CK.VALIDATE (42_checksum.md R78). -/
def execCkValidate (s : State) : Host.Outcome State Fault Refusal :=
  perform s <| (validate Config.env (portVa s)).bind fun _ =>
    .ok (s.writeResults {})

end Sys2Proof.Machine
end

