-- ==== Sys2Proof/Machine/Dictionary.lean ====
section
/-! DEFINITION. The DICT family (44_dictionary_system.md R101 to R103). -/

namespace Sys2Proof.Machine

/-- The load check: "exactly 2048 unique entries" (44_dictionary_system.md R101). -/
def validWordList (l : List Word) : Bool := decide (l.length = 2048) && decide l.Nodup

/-- R101: readiness, then the check, then all 2048 entries and the ready bit at once. -/
def dictLoad (s : State) : Txn State :=
  (checkNot s.dictReady .dictAlreadyLoaded).bind fun _ =>
  (require (validWordList (portSe s)) .dictInvalid).bind fun _ =>
  .ok (({ s with dict := Memory.writeAll s.dict 0 (portSe s) }.setReady).writeResults {})

/-- DICT.LOAD (44_dictionary_system.md R101). -/
def execDictLoad (s : State) : Host.Outcome State Fault Refusal := perform s (dictLoad s)

/-- R102: readiness, then the range of the index, then the read. -/
def dictWord (s : State) : Txn State :=
  (requireReady s).bind fun _ =>
  (readEntry s.dict (portN s)).bind fun w =>
  .ok (s.writeResults { rwd := some w })

/-- DICT.WORD (44_dictionary_system.md R102). -/
def execDictWord (s : State) : Host.Outcome State Fault Refusal := perform s (dictWord s)

/-- The inverse lookup of DICT.INDEX and MN.DECODE step 2: InvalidWord if absent (R103). -/
def findEntry (m : Memory) (w : Word) : Txn Nat :=
  match Memory.find m w with
  | some idx => .ok idx
  | none => .err .invalidWord

/-- R103: readiness, then the lookup. -/
def dictIndex (s : State) : Txn State :=
  (requireReady s).bind fun _ =>
  (findEntry s.dict (portWd s)).bind fun idx =>
  .ok (s.writeResults { rn := some (numberRn idx) })

/-- DICT.INDEX (44_dictionary_system.md R103). -/
def execDictIndex (s : State) : Host.Outcome State Fault Refusal := perform s (dictIndex s)

end Sys2Proof.Machine
end

