-- ==== Sys2Proof/Machine/Mnemonic.lean ====
section
/-! DEFINITION. The MN family (43_mnemonic.md R85 to R92). The two composites are walked by the
sequencer, one phase or one turn of a loop a micro-step (10_state.md R14). -/

namespace Sys2Proof.Machine

/-! ## The validators -/

/-- CHKLEN(e) (43_mnemonic.md R85). -/
def checkLength (e : ByteSeq) : Txn Unit :=
  require (decide ((8 * e.length) % 32 = 0) && decide (128 ≤ 8 * e.length) && decide (8 * e.length ≤ 256))
    .invalidEntropyLength

/-- MN.CHKLEN (43_mnemonic.md R85). -/
def execMnChklen (s : State) : Host.Outcome State Fault Refusal :=
  perform s <| (checkLength (portBy s)).bind fun _ => .ok (s.writeResults {})

/-- The source's split formula for a word count (43_mnemonic.md R86):
crc_bits = total_bits - payload_bits must be payload_bits div 32. -/
def splitFormula (w : Nat) : Bool :=
  decide (11 * w - 11 * w / 32 * 32 = 11 * w / 32 * 32 / 32)

/-- CHKWC(s) (43_mnemonic.md R86): the formula and the range 12..24 (90_conflicts.md C4). -/
def checkWordCount (se : Sentence) : Txn Unit :=
  require (splitFormula se.length && decide (12 ≤ se.length) && decide (se.length ≤ 24))
    .invalidMnemonicWordCount

/-- MN.CHKWC (43_mnemonic.md R86). -/
def execMnChkwc (s : State) : Host.Outcome State Fault Refusal :=
  perform s <| (checkWordCount (portSe s)).bind fun _ => .ok (s.writeResults {})

/-! ## The slicer -/

/-- C2I(c) (43_mnemonic.md R87): the value of the chunk padded to 16 bits. -/
def chunkToIndex (env : Env) (c : Bits) : Txn Nat :=
  (checkNot (decide (16 < c.length)) .chunkTooWide).bind fun _ =>
  (padLeft env c 16).bind fun p => .ok (val p)

/-- MN.C2I (43_mnemonic.md R87). -/
def execMnC2i (s : State) : Host.Outcome State Fault Refusal :=
  perform s <| (chunkToIndex Config.env (portVa s)).bind fun idx =>
    .ok (s.writeResults { rn := some (numberRn idx) })

/-- I2C(x) (43_mnemonic.md R88): the low 11 of the 16 bits; the top 5 are discarded unexamined. -/
def indexToChunk (x : Nat) : Bits := (bitsOf 16 x).drop 5

/-- MN.I2C (43_mnemonic.md R88). -/
def execMnI2c (s : State) : Host.Outcome State Fault Refusal :=
  perform s (.ok (s.writeResults { ra := some (indexToChunk (portN s)) }))

/-! ## The sequencer: MN.ENCODE (43_mnemonic.md R91) -/

/-- E1: the entropy length. -/
def phaseE1 (s : State) : Txn State :=
  (checkLength (portBy s)).bind fun _ => .ok { s with ph := .e2 }

/-- E2: K and WC. -/
def phaseE2 (s : State) : Txn State :=
  let bitLen := 8 * (portBy s).length
  .ok { s with ph := .e3, scratch := { s.scratch with k := bitLen / 32, wc := (bitLen + bitLen / 32) / 11 } }

/-- E3: the signed bits. -/
def phaseE3 (env : Env) (s : State) : Txn State :=
  (sign env (portBy s)).bind fun v => .ok { s with ph := .e4, scratch := { s.scratch with s := v } }

/-- E4: the defensive check, then the loop's start values. -/
def phaseE4 (s : State) : Txn State :=
  (require (decide (s.scratch.s.length % 11 = 0)) .invalidEntropyLength).bind fun _ =>
  .ok { s with ph := .e5, scratch := { s.scratch with outs := [], i := 0 } }

/-- E5: one turn of the loop, or its end (log 10). -/
def phaseE5 (env : Env) (s : State) : Txn State :=
  if s.scratch.i < s.scratch.wc then
    (popFront s.scratch.s 11).bind fun cut =>
    (chunkToIndex env cut.1).bind fun idx =>
    (readEntry s.dict idx).bind fun w =>
    .ok { s with scratch := { s.scratch with
            c := cut.1, s := cut.2, outs := s.scratch.outs ++ [w], i := s.scratch.i + 1 } }
  else .ok { s with ph := .e6 }

/-- E6: RSE <- OUTS, and back to IDLE. -/
def phaseE6 (s : State) : Txn State :=
  .ok { s.writeResults { rse := some s.scratch.outs } with ph := .idle }

/-! ## The sequencer: MN.DECODE (43_mnemonic.md R92) -/

/-- D1: the word count; then the loop's start values. -/
def phaseD1 (s : State) : Txn State :=
  (checkWordCount (portSe s)).bind fun _ =>
  .ok { s with ph := .d2, scratch := { s.scratch with wc := (portSe s).length, s := [], i := 0 } }

/-- D2: one turn of the loop, or its end when word I does not exist (I = WC = len(s); log 10). -/
def phaseD2 (s : State) : Txn State :=
  match (portSe s)[s.scratch.i]? with
  | some w =>
    (findEntry s.dict w).bind fun idx =>
    .ok { s with scratch := { s.scratch with
            c := indexToChunk idx, s := s.scratch.s ++ indexToChunk idx, i := s.scratch.i + 1 } }
  | none => .ok { s with ph := .d3 }

/-- D3: the concatenation, already done turn by turn. -/
def phaseD3 (s : State) : Txn State := .ok { s with ph := .d4 }

/-- D4: the checksum; whatever is not Ok is InvalidChecksum (43_mnemonic.md R92, log 10). -/
def phaseD4 (env : Env) (s : State) : Txn State :=
  match validate env s.scratch.s with
  | .ok _ => .ok { s with ph := .d5 }
  | .err _ | .violation _ => .err .invalidChecksum
  | .stuck f => .stuck f

/-- D5: drop the checksum bits and take the bytes. -/
def phaseD5 (s : State) : Txn State :=
  (popBack s.scratch.s (s.scratch.s.length / 32)).bind fun split =>
  (bitsToBytes split.1).bind fun bytes =>
  .ok { s with ph := .d6, scratch := { s.scratch with k := s.scratch.s.length / 32, outb := bytes } }

/-- D6: RBY <- OUTB, and back to IDLE. -/
def phaseD6 (s : State) : Txn State :=
  .ok { s.writeResults { rby := some s.scratch.outb } with ph := .idle }

/-! ## The walk -/

/-- One micro-step of the sequencer (10_state.md R14). -/
def sequencerStep (env : Env) (s : State) : Txn State :=
  match s.ph with
  | .idle => .ok s
  | .e1 => phaseE1 s
  | .e2 => phaseE2 s
  | .e3 => phaseE3 env s
  | .e4 => phaseE4 s
  | .e5 => phaseE5 env s
  | .e6 => phaseE6 s
  | .d1 => phaseD1 s
  | .d2 => phaseD2 s
  | .d3 => phaseD3 s
  | .d4 => phaseD4 env s
  | .d5 => phaseD5 s
  | .d6 => phaseD6 s

/-- The walk until PH is IDLE again, of at most `fuel` micro-steps. -/
def sequencerWalk (env : Env) (fuel : Nat) (s : State) : Txn State :=
  match fuel with
  | 0 => if s.ph = .idle then .ok s else .stuck .sequencerOverrun
  | k + 1 => if s.ph = .idle then .ok s else (sequencerStep env s).bind (sequencerWalk env k)

/-- The bound of a walk: six phases and the 24 turns of a loop (43_mnemonic.md R94; log 9). -/
def walkBound : Nat := 30

/-- MN.ENCODE under given parameters: readiness before step 1, then the walk from E1. -/
def encodeCommand (env : Env) (s : State) : Txn State :=
  (requireReady s).bind fun _ => sequencerWalk env walkBound { s with ph := .e1 }

/-- MN.ENCODE (43_mnemonic.md R91). -/
def execMnEncode (s : State) : Host.Outcome State Fault Refusal := perform s (encodeCommand Config.env s)

/-- MN.DECODE under given parameters: readiness before step 1, then the walk from D1. -/
def decodeCommand (env : Env) (s : State) : Txn State :=
  (requireReady s).bind fun _ => sequencerWalk env walkBound { s with ph := .d1 }

/-- MN.DECODE (43_mnemonic.md R92). -/
def execMnDecode (s : State) : Host.Outcome State Fault Refusal := perform s (decodeCommand Config.env s)

end Sys2Proof.Machine
end

