-- ==== Sys2Proof/Machine/System.lean ====
section
/-! DEFINITION. The SYS family (44_dictionary_system.md R100). -/

namespace Sys2Proof.Machine

/-- SYS.RDST (44_dictionary_system.md R100): RN <- zext_16(STATUS), also while FAULT = 1. -/
def execSysRdst (s : State) : Host.Outcome State Fault Refusal :=
  settle s (.ok (s.writeResults { rn := some ((readStatus s).setWidth 16) }))

end Sys2Proof.Machine
end

