-- ==== Sys2Proof/Machine/Dispatch.lean ====
section
/-! DEFINITION. One arm per instruction of the opcode map (30_encoding.md R46). -/

namespace Sys2Proof.Machine

def exec (i : Instr) (s : State) : Host.Outcome State Fault Refusal :=
  match i with
  | .sysRdst => Sys2Proof.Machine.execSysRdst s
  | .dictLoad => Sys2Proof.Machine.execDictLoad s
  | .bvAppend => Sys2Proof.Machine.execBvAppend s
  | .bvPopf => Sys2Proof.Machine.execBvPopf s
  | .bvPopb => Sys2Proof.Machine.execBvPopb s
  | .bvPadl => Sys2Proof.Machine.execBvPadl s
  | .bbB2bits => Sys2Proof.Machine.execBbB2bits s
  | .bbBits2b => Sys2Proof.Machine.execBbBits2b s
  | .ckExtract => Sys2Proof.Machine.execCkExtract s
  | .ckCompute => Sys2Proof.Machine.execCkCompute s
  | .ckSign => Sys2Proof.Machine.execCkSign s
  | .ckValidate => Sys2Proof.Machine.execCkValidate s
  | .mnChklen => Sys2Proof.Machine.execMnChklen s
  | .mnChkwc => Sys2Proof.Machine.execMnChkwc s
  | .mnC2i => Sys2Proof.Machine.execMnC2i s
  | .mnI2c => Sys2Proof.Machine.execMnI2c s
  | .dictWord => Sys2Proof.Machine.execDictWord s
  | .dictIndex => Sys2Proof.Machine.execDictIndex s
  | .mnEncode => Sys2Proof.Machine.execMnEncode s
  | .mnDecode => Sys2Proof.Machine.execMnDecode s

end Sys2Proof.Machine
end

