-- ==== Sys2Proof/Machine/Step.lean ====
section
/-! DEFINITION. One step is one whole transaction (10_state.md R10) on what stands on the ports. -/

namespace Sys2Proof.Machine

/-- Performs the command that the host holds on CMD (10_state.md R10, R11; 20_memory.md R42). -/
def step (s : State) : Host.Outcome State Fault Refusal :=
  match decode (portCmd s) with
  | .ok i => exec i s
  | .error _ => performIllegal s

/-- The state with a command of the opcode table presented on CMD, where `step` takes its next
command from; no other port and no other state changes (log 4). -/
def State.withFetchWord (s : State) (nbits w : Nat) : State :=
  { s with ops := { s.ops with cmd := BitVec.ofNat 8 (w % 2 ^ nbits) } }

end Sys2Proof.Machine
end

