-- ==== Sys2Proof/Machine/Session.lean ====
section
/-! DEFINITION. The outside of the engine: what the host and the platform do between transactions
(10_state.md R10; 70_reset_and_hazards.md R125, R132), and the programs a host can run instead of a
composite command (43_mnemonic.md R93). -/

namespace Sys2Proof.Machine

/-- What can happen at the engine's boundary, each between two transactions only (log 14). -/
inductive HostEvent where
  /-- The host sets the operand ports and starts the command on CMD. -/
  | present (p : Operands)
  /-- The platform resets the engine. -/
  | reset
deriving DecidableEq, Repr

/-- One event. -/
def deliver (e : HostEvent) (s : State) : Host.Outcome State Fault Refusal :=
  match e with
  | .present p => step { s with ops := p }
  | .reset => .next s.platformReset

/-- A run: the events in the order the host issues them (20_memory.md R39). -/
def session (es : List HostEvent) (s : State) : Host.Outcome State Fault Refusal :=
  match es with
  | [] => .next s
  | e :: rest =>
    match deliver e s with
    | .next t => session rest t
    | .fault f => .fault f
    | .refused r => .refused r

/-- What a host has after a command or a sequence of commands: a result and the engine's state, or
the ST code of the first command that did not end Ok, or nothing because the model stopped. -/
inductive HostReply (α : Type) where
  | done (a : α) (s : State)
  | failed (code : BitVec 4) (s : State)
  | stopped
deriving DecidableEq, Repr

/-- The host goes on after an Ok and stops at the first failure (43_mnemonic.md R93). -/
def HostReply.bind {α β : Type} (r : HostReply α) (f : α → State → HostReply β) : HostReply β :=
  match r with
  | .done a s => f a s
  | .failed code s => .failed code s
  | .stopped => .stopped

/-- What the host learned, leaving out the state. -/
def HostReply.verdict {α : Type} (r : HostReply α) : Option (Except (BitVec 4) α) :=
  match r with
  | .done a _ => some (.ok a)
  | .failed code _ => some (.error code)
  | .stopped => none

/-- Operand ports with nothing on them, for a host that sets only those a command reads. -/
def noOperands : Operands where
  cmd := 0x00#8
  va  := []
  vb  := []
  n   := 0#16
  by_ := []
  se  := []
  wd  := .ofIndex 0 (by decide)

/-- The host has set the operand ports to `p` and the command byte to that of `i`. -/
def State.present (s : State) (i : Instr) (p : Operands) : State :=
  { s with ops := { p with cmd := encode i } }

/-- The host issues one command with operands `p` and reads a result off the ports if ST is OK. -/
def issue {α : Type} (i : Instr) (p : Operands) (result : Results → Option α) (s : State) : HostReply α :=
  match step (s.present i p) with
  | .next t =>
    if t.st = stOk then
      match result t.res with
      | some a => .done a t
      | none => .stopped
    else .failed t.st t
  | .fault _ => .stopped
  | .refused _ => .stopped

/-- RA and RB read together. -/
def readPair (r : Results) : Option (Bits × Bits) :=
  match r.ra, r.rb with
  | some a, some b => some (a, b)
  | _, _ => none

/-- `turns` times BV.POPF with N = 11, MN.C2I, DICT.WORD (43_mnemonic.md R93). -/
def hostSlice (turns : Nat) (v : Bits) (out : Sentence) (s : State) : HostReply Sentence :=
  match turns with
  | 0 => .done out s
  | k + 1 =>
    (issue .bvPopf { noOperands with va := v, n := 11#16 } readPair s).bind fun cut s =>
    (issue .mnC2i { noOperands with va := cut.1 } (fun r => r.rn) s).bind fun idx s =>
    (issue .dictWord { noOperands with n := idx } (fun r => r.rwd) s).bind fun w s =>
    hostSlice k cut.2 (out ++ [w]) s

/-- MN.ENCODE by single commands: MN.CHKLEN, CK.SIGN, then the slicing loop (43_mnemonic.md R93). -/
def hostEncode (e : ByteSeq) (s : State) : HostReply Sentence :=
  (issue .mnChklen { noOperands with by_ := e } (fun _ => some ()) s).bind fun _ s =>
  (issue .ckSign { noOperands with by_ := e } (fun r => r.ra) s).bind fun signed s =>
  hostSlice ((8 * e.length + 8 * e.length / 32) / 11) signed [] s

/-- Per word DICT.INDEX, MN.I2C, BV.APPEND (43_mnemonic.md R93). -/
def hostJoin (ws : Sentence) (v : Bits) (s : State) : HostReply Bits :=
  match ws with
  | [] => .done v s
  | w :: rest =>
    (issue .dictIndex { noOperands with wd := w } (fun r => r.rn) s).bind fun idx s =>
    (issue .mnI2c { noOperands with n := idx } (fun r => r.ra) s).bind fun chunk s =>
    (issue .bvAppend { noOperands with va := v, vb := chunk } (fun r => r.ra) s).bind fun joined s =>
    hostJoin rest joined s

/-- MN.DECODE by single commands: MN.CHKWC, the joining loop, CK.VALIDATE, BV.POPB, BB.BITS2B
(43_mnemonic.md R93). -/
def hostDecode (ws : Sentence) (s : State) : HostReply ByteSeq :=
  (issue .mnChkwc { noOperands with se := ws } (fun _ => some ()) s).bind fun _ s =>
  (hostJoin ws [] s).bind fun v s =>
  (issue .ckValidate { noOperands with va := v } (fun _ => some ()) s).bind fun _ s =>
  (issue .bvPopb { noOperands with va := v, n := BitVec.ofNat 16 (v.length / 32) } readPair s).bind fun split s =>
  issue .bbBits2b { noOperands with va := split.1 } (fun r => r.rby) s

/-- CK.SIGN by single commands and one digest `g` the host has computed: CK.EXTRACT, BB.B2BITS,
BV.APPEND (43_mnemonic.md R93; 95_test_vectors.md P5). -/
def hostSign (e : ByteSeq) (g : Digest) (s : State) : HostReply Bits :=
  (issue .ckExtract { noOperands with by_ := g.toList, n := BitVec.ofNat 16 (8 * e.length / 32) }
    (fun r => r.ra) s).bind fun c s =>
  (issue .bbB2bits { noOperands with by_ := e } (fun r => r.ra) s).bind fun p s =>
  issue .bvAppend { noOperands with va := p, vb := c } (fun r => r.ra) s

/-- CK.COMPUTE by CK.EXTRACT and one digest `g` the host has computed (43_mnemonic.md R93). -/
def hostCompute (e : ByteSeq) (g : Digest) (s : State) : HostReply Bits :=
  issue .ckExtract { noOperands with by_ := g.toList, n := BitVec.ofNat 16 (8 * e.length / 32) }
    (fun r => r.ra) s

/-- CK.VALIDATE by BV.POPB, BB.BITS2B, one call of a digest, CK.EXTRACT and the host's own comparison
(43_mnemonic.md R93). -/
def hostValidate (digest : ByteSeq → Digest) (v : Bits) (s : State) : HostReply Unit :=
  (issue .bvPopb { noOperands with va := v, n := BitVec.ofNat 16 (v.length / 32) } readPair s).bind fun split s =>
  (issue .bbBits2b { noOperands with va := split.1 } (fun r => r.rby) s).bind fun bytes s =>
  (issue .ckExtract { noOperands with by_ := (digest bytes).toList, n := BitVec.ofNat 16 (v.length / 32) }
    (fun r => r.ra) s).bind fun recomputed s =>
  if recomputed = split.2 then .done () s else .failed (errorCode .invalidChecksum) s

end Sys2Proof.Machine
end

