-- ==== Sys2Proof/Safety.lean ====
section
/-! DEFINITION. The terms claims are made in: how a transaction ended and what it left alone, what a
legal state is, and the port tables of 10_state.md R11 and 30_encoding.md R47. -/

namespace Sys2Proof.Machine

/-! ## The ends of a transaction, each with its frame (60_exceptions.md R112 to R114) -/

/-- From `s` a transaction ended Ok in `t` with exactly the results `r` (10_state.md R12, R13), and
left the operand ports, STATUS and the dictionary as they were. -/
structure EndsOk (s t : State) (r : Results) : Prop where
  st     : t.st = 0#4
  res    : t.res = r
  ops    : t.ops = s.ops
  status : t.status = s.status
  dict   : t.dict = s.dict
  ph     : t.ph = .idle

/-- From `s` a transaction ended Err(e) in `t` (60_exceptions.md R113). -/
structure EndsErr (s t : State) (e : TypedError) : Prop where
  st     : t.st = errorCode e
  res    : t.res = {}
  ops    : t.ops = s.ops
  status : t.status = s.status
  dict   : t.dict = s.dict
  ph     : t.ph = .idle

/-- From `s` a transaction ended Fault(v) in `t` (60_exceptions.md R114). -/
structure EndsFault (s t : State) (v : Violation) : Prop where
  st     : t.st = 15#4
  res    : t.res = {}
  ops    : t.ops = s.ops
  fault  : t.faulted = true
  reason : t.freason = violationCode v
  ready  : t.dictReady = s.dictReady
  dict   : t.dict = s.dict
  ph     : t.ph = .idle

/-- In `s` a command was refused because the fault latch is set, leaving `t` (60_exceptions.md R114). -/
structure EndsRefused (s t : State) : Prop where
  st     : t.st = 15#4
  res    : t.res = {}
  ops    : t.ops = s.ops
  status : t.status = s.status
  dict   : t.dict = s.dict
  ph     : t.ph = .idle

/-! ## Legal states -/

/-- The legal values of STATUS (10_state.md R16): bits 3:2 are 0; FREASON is 0 while FAULT = 0 and one
of 1..9 while FAULT = 1. -/
def legalStatus (b : BitVec 8) : Bool :=
  !b.getLsbD 2 && !b.getLsbD 3 &&
  (if statusFault b then decide (1 ≤ (statusReason b).toNat) && decide ((statusReason b).toNat ≤ 9)
   else decide (statusReason b = 0#4))

/-- The ST codes that a transaction can produce (10_state.md R13, 30_encoding.md R50). -/
def legalSt (st : BitVec 4) : Bool := decide (st.toNat ≤ 5) || decide (st = 15#4)

/-- A memory holds a complete, duplicate-free dictionary (70_reset_and_hazards.md R126, R133): all
2048 indexes, pairwise different words. -/
structure Memory.HoldsDictionary (m : Memory) : Prop where
  complete : m.map Prod.fst = List.range 2048
  distinct : (m.map Prod.snd).Nodup

/-- The invariant of the machine. -/
structure State.Inv (s : State) : Prop where
  /-- PH is IDLE between transactions (10_state.md R14). -/
  idle     : s.ph = .idle
  /-- 10_state.md R16. -/
  status   : legalStatus s.status = true
  /-- The canonical form of the memory. -/
  memory   : Memory.wf s.dict = true
  /-- DICT_READY = 1 says that the dictionary is loaded and passed its check (10_state.md R16). -/
  loaded   : s.dictReady = true → Memory.HoldsDictionary s.dict
  /-- Nothing is written before a load succeeds (20_memory.md R36). -/
  unloaded : s.dictReady = false → s.dict = []

/-- The operands fit the operand ports (30_encoding.md R51). -/
def State.operandsFit (s : State) : Prop := Operands.wellFormed Config.env.caps s.ops = true

/-- A port value, where there is one, fits its capacity (10_state.md R12). -/
def fitsPort {α : Type} (cap : Option Nat) (v : Option (List α)) : Bool :=
  match v with
  | none => true
  | some l => Caps.holds cap l.length

/-- The results fit the result ports (10_state.md R12). -/
def State.resultsFit (s : State) : Prop :=
  fitsPort Config.env.caps.bv s.res.ra = true ∧ fitsPort Config.env.caps.bv s.res.rb = true ∧
  fitsPort Config.env.caps.by_ s.res.rby = true ∧ fitsPort Config.env.caps.se s.res.rse = true

/-- The number of bits that the result on RA has where nothing is truncated, for the commands whose
result can be longer than its port (30_encoding.md R51 code 6; R60, R63, R70, R77). -/
def fullLength (i : Instr) (p : Operands) : Option Nat :=
  match i with
  | .bvAppend => some (p.va.length + p.vb.length)
  | .bvPadl   => some (max p.va.length p.n.toNat)
  | .bbB2bits => some (8 * p.by_.length)
  | .ckSign   => some (8 * p.by_.length + min (p.by_.length / 4) 8)
  | .sysRdst | .dictLoad | .bvPopf | .bvPopb | .bbBits2b | .ckExtract | .ckCompute | .ckValidate
  | .mnChklen | .mnChkwc | .mnC2i | .mnI2c | .dictWord | .dictIndex | .mnEncode | .mnDecode => none

/-- What the host can observe of an end: ST, the data result ports, STATUS and, through the commands,
the dictionary. -/
def State.observable (s : State) : BitVec 4 × Results × BitVec 8 × Memory :=
  (s.st, s.res, s.status, s.dict)

/-- The observable end of a step. -/
def observableEnd (o : Host.Outcome State Fault Refusal) :
    Host.Outcome (BitVec 4 × Results × BitVec 8 × Memory) Fault Refusal :=
  match o with
  | .next t => .next t.observable
  | .fault f => .fault f
  | .refused r => .refused r

/-! ## The data encodings as relations, bit by bit -/

/-- `v` is the bits of the bytes `d`: `v[8j + i]` is bit 7 - i of `d[j]` (20_memory.md R32). -/
structure IsBitsOf (d : ByteSeq) (v : Bits) : Prop where
  length : v.length = 8 * d.length
  bit    : ∀ j x, d[j]? = some x → ∀ i < 8, v[8 * j + i]? = some (x.getLsbD (7 - i))

/-- `sum` is the last k bits of the byte `first`, all 8 if k exceeds 8: bit i is bit k - 1 - i of the
byte (42_checksum.md R75). -/
structure IsChecksum (first : Byte) (k : Nat) (sum : Bits) : Prop where
  length : sum.length = min k 8
  bit    : ∀ i < min k 8, sum[i]? = some (first.getLsbD (min k 8 - 1 - i))

/-- Bits 11j .. 11j+10 of `v` are the index `idx`, the first of them weighing 1024 (30_encoding.md R54). -/
structure IsChunk (v : Bits) (j idx : Nat) : Prop where
  range : idx < 2048
  bit   : ∀ i < 11, v[11 * j + i]? = some (idx.testBit (10 - i))

/-- No entry of the memory holds the word. -/
def Memory.Lacks (m : Memory) (w : Word) : Prop := ∀ idx, Memory.read m idx ≠ some w

/-! ## Port tables -/

/-- The operand ports with only those kept that the table of 10_state.md R11 lists for an instruction. -/
def Operands.listed (i : Instr) (p : Operands) : Operands :=
  match i with
  | .sysRdst    => { noOperands with cmd := p.cmd }
  | .dictLoad   => { noOperands with cmd := p.cmd, se := p.se }
  | .bvAppend   => { noOperands with cmd := p.cmd, va := p.va, vb := p.vb }
  | .bvPopf     => { noOperands with cmd := p.cmd, va := p.va, n := p.n }
  | .bvPopb     => { noOperands with cmd := p.cmd, va := p.va, n := p.n }
  | .bvPadl     => { noOperands with cmd := p.cmd, va := p.va, n := p.n }
  | .bbB2bits   => { noOperands with cmd := p.cmd, by_ := p.by_ }
  | .bbBits2b   => { noOperands with cmd := p.cmd, va := p.va }
  | .ckExtract  => { noOperands with cmd := p.cmd, by_ := p.by_, n := p.n }
  | .ckCompute  => { noOperands with cmd := p.cmd, by_ := p.by_ }
  | .ckSign     => { noOperands with cmd := p.cmd, by_ := p.by_ }
  | .ckValidate => { noOperands with cmd := p.cmd, va := p.va }
  | .mnChklen   => { noOperands with cmd := p.cmd, by_ := p.by_ }
  | .mnChkwc    => { noOperands with cmd := p.cmd, se := p.se }
  | .mnC2i      => { noOperands with cmd := p.cmd, va := p.va }
  | .mnI2c      => { noOperands with cmd := p.cmd, n := p.n }
  | .dictWord   => { noOperands with cmd := p.cmd, n := p.n }
  | .dictIndex  => { noOperands with cmd := p.cmd, wd := p.wd }
  | .mnEncode   => { noOperands with cmd := p.cmd, by_ := p.by_ }
  | .mnDecode   => { noOperands with cmd := p.cmd, se := p.se }

/-- Which of RA, RB, RBY, RSE, RWD, RN hold a value. -/
def Results.shape (r : Results) : List Bool :=
  [r.ra.isSome, r.rb.isSome, r.rby.isSome, r.rse.isSome, r.rwd.isSome, r.rn.isSome]

/-- Which of RA, RB, RBY, RSE, RWD, RN a command writes on Ok (30_encoding.md R47). -/
def writesOnOk (i : Instr) : List Bool :=
  match i with
  | .sysRdst | .mnC2i | .dictIndex => [false, false, false, false, false, true]
  | .bvAppend | .bvPadl | .bbB2bits | .ckExtract | .ckCompute | .ckSign | .mnI2c =>
    [true, false, false, false, false, false]
  | .bvPopf | .bvPopb => [true, true, false, false, false, false]
  | .bbBits2b | .mnDecode => [false, false, true, false, false, false]
  | .mnEncode => [false, false, false, true, false, false]
  | .dictWord => [false, false, false, false, true, false]
  | .dictLoad | .ckValidate | .mnChklen | .mnChkwc => [false, false, false, false, false, false]

/-- The typed errors a command may end in (30_encoding.md R47). -/
def possibleErrors (i : Instr) : List TypedError :=
  match i with
  | .dictLoad   => [.dictInvalid]
  | .ckValidate => [.invalidChecksum]
  | .mnChklen   => [.invalidEntropyLength]
  | .mnChkwc    => [.invalidMnemonicWordCount]
  | .dictIndex  => [.invalidWord]
  | .mnEncode   => [.invalidEntropyLength]
  | .mnDecode   => [.invalidMnemonicWordCount, .invalidWord, .invalidChecksum]
  | .sysRdst | .bvAppend | .bvPopf | .bvPopb | .bvPadl | .bbB2bits | .bbBits2b | .ckExtract
  | .ckCompute | .ckSign | .mnC2i | .mnI2c | .dictWord => []

/-- The contract violations a command may end in (30_encoding.md R47). -/
def possibleViolations (i : Instr) : List Violation :=
  match i with
  | .dictLoad   => [.dictAlreadyLoaded]
  | .bvAppend   => [.capacityOverflow]
  | .bvPopf     => [.indexOutOfRange]
  | .bvPopb     => [.indexOutOfRange]
  | .bvPadl     => [.capacityOverflow]
  | .bbB2bits   => [.capacityOverflow]
  | .bbBits2b   => [.notByteMultiple]
  | .ckExtract  => [.badDigestLength]
  | .ckSign     => [.capacityOverflow]
  | .ckValidate => [.notByteMultiple, .checksumWidth]
  | .mnC2i      => [.chunkTooWide]
  | .dictWord   => [.dictNotReady, .indexOutOfRange]
  | .dictIndex  => [.dictNotReady]
  | .mnEncode   => [.dictNotReady]
  | .mnDecode   => [.dictNotReady]
  | .sysRdst | .ckCompute | .mnChklen | .mnChkwc | .mnI2c => []

end Sys2Proof.Machine
end

