-- ==== Sys2Proof/Certificates/Slice0/Obligations.lean ====
section
/-! DEFINITION. The statements for the provers. Unless a statement says otherwise it is about every
state, reachable or not, and about every capacity and every digest the spec allows: `Config` fixes
none of them. `EndsOk`, `EndsErr`, `EndsFault` and `EndsRefused` (Safety.lean) each say the whole end of
a transaction with its frame: ST, all data result ports, the operand ports, STATUS, the dictionary
and PH. -/

open Sys2Proof Sys2Proof.Machine

/-! ## Command byte -/

/-- 30_encoding.md R46: the twenty command bytes, written out as FAM and FN. -/
def Obligations.OpcodeMapDecodes : Prop :=
  decode (0x0#4 ++ 0x0#4) = .ok .sysRdst ∧ decode (0x0#4 ++ 0x1#4) = .ok .dictLoad ∧
  decode (0x1#4 ++ 0x0#4) = .ok .bvAppend ∧ decode (0x1#4 ++ 0x1#4) = .ok .bvPopf ∧
  decode (0x1#4 ++ 0x2#4) = .ok .bvPopb ∧ decode (0x1#4 ++ 0x3#4) = .ok .bvPadl ∧
  decode (0x2#4 ++ 0x0#4) = .ok .bbB2bits ∧ decode (0x2#4 ++ 0x1#4) = .ok .bbBits2b ∧
  decode (0x3#4 ++ 0x0#4) = .ok .ckExtract ∧ decode (0x3#4 ++ 0x1#4) = .ok .ckCompute ∧
  decode (0x3#4 ++ 0x2#4) = .ok .ckSign ∧ decode (0x3#4 ++ 0x3#4) = .ok .ckValidate ∧
  decode (0x4#4 ++ 0x0#4) = .ok .mnChklen ∧ decode (0x4#4 ++ 0x1#4) = .ok .mnChkwc ∧
  decode (0x4#4 ++ 0x2#4) = .ok .mnC2i ∧ decode (0x4#4 ++ 0x3#4) = .ok .mnI2c ∧
  decode (0x4#4 ++ 0x4#4) = .ok .dictWord ∧ decode (0x4#4 ++ 0x5#4) = .ok .dictIndex ∧
  decode (0x4#4 ++ 0x6#4) = .ok .mnEncode ∧ decode (0x4#4 ++ 0x7#4) = .ok .mnDecode

/-- 30_encoding.md R45, R46: the encoder and the decoder agree, in both directions. -/
def Obligations.DecodeEncodeAgree : Prop :=
  (∀ i : Instr, i.wellFormed = true → decode (encode i) = .ok i) ∧
  (∀ (b : Byte) (i : Instr), decode b = .ok i → encode i = b)

/-- A step performs the command on CMD (10_state.md R10, R11): it is `exec` of the decoded instruction
at the same state. `withFetchWord` presents a command and touches no other port and no other state; a
step then runs it (that a program is presented so from outside is the model's choice, log 4). -/
def Obligations.StepRunsDecodedCommand : Prop :=
  (∀ (s : State) (i : Instr), i.wellFormed = true → decode s.ops.cmd = .ok i → step s = exec i s) ∧
  (∀ (s : State) (i : Instr),
    s.withFetchWord 8 (encode i).toNat = { s with ops := { s.ops with cmd := encode i } } ∧
    step (s.withFetchWord 8 (encode i).toNat) = exec i { s with ops := { s.ops with cmd := encode i } })

/-- 30_encoding.md R52: a byte that is none of the twenty raises Fault(IllegalCommand) and does nothing
else; while FAULT = 1 every byte but SYS.RDST's is refused, legal or not, and SYS.RDST is performed.
That a refused command leaves NO VALUE on the result ports (`EndsRefused.res`) is the model's reading of
R52's "no result" (DEDUCED, log 17). -/
def Obligations.IllegalBytesFaultAndLatchRefuses : Prop :=
  (∀ s : State, s.faulted = false →
    s.ops.cmd ∉ [0x00#8, 0x01#8, 0x10#8, 0x11#8, 0x12#8, 0x13#8, 0x20#8, 0x21#8, 0x30#8, 0x31#8, 0x32#8,
      0x33#8, 0x40#8, 0x41#8, 0x42#8, 0x43#8, 0x44#8, 0x45#8, 0x46#8, 0x47#8] →
    ∃ t, step s = .next t ∧ EndsFault s t .illegalCommand) ∧
  (∀ s : State, s.faulted = true → s.ops.cmd ≠ 0x00#8 → ∃ t, step s = .next t ∧ EndsRefused s t) ∧
  (∀ s : State, s.faulted = true → s.ops.cmd = 0x00#8 →
    ∃ t x, step s = .next t ∧ EndsOk s t { rn := some x } ∧
      x.toNat = 16 * s.freason.toNat + 2 + s.dictReady.toNat)

/-- 30_encoding.md R50, R51: the numbers of the typed errors on ST and of the violations in FREASON,
which `EndsErr` and `EndsFault` put there. -/
def Obligations.CodesAreThoseOfTheTables : Prop :=
  errorCode .invalidEntropyLength = 1#4 ∧ errorCode .invalidMnemonicWordCount = 2#4 ∧
  errorCode .invalidWord = 3#4 ∧ errorCode .invalidChecksum = 4#4 ∧ errorCode .dictInvalid = 5#4 ∧
  violationCode .indexOutOfRange = 1#4 ∧ violationCode .notByteMultiple = 2#4 ∧
  violationCode .dictNotReady = 3#4 ∧ violationCode .dictAlreadyLoaded = 4#4 ∧
  violationCode .illegalCommand = 5#4 ∧ violationCode .capacityOverflow = 6#4 ∧
  violationCode .chunkTooWide = 7#4 ∧ violationCode .checksumWidth = 8#4 ∧
  violationCode .badDigestLength = 9#4

/-! ## SYS and DICT -/

/-- 44_dictionary_system.md R100: SYS.RDST answers STATUS zero-extended, in every state, faulted or not. -/
def Obligations.ReadStatusGivesStatus : Prop :=
  decode 0x00#8 = .ok .sysRdst ∧
  ∀ s : State, ∃ t x, exec .sysRdst s = .next t ∧ EndsOk s t { rn := some x } ∧
    x.toNat = 16 * s.freason.toNat + 2 * s.faulted.toNat + s.dictReady.toNat

/-- 44_dictionary_system.md R101: DICT.LOAD on an engine that is not faulted. A list of 2048 pairwise
different words is written whole, in index order, and DICT_READY is set; any other list is DictInvalid;
a second load is Fault(DictAlreadyLoaded). -/
def Obligations.DictLoadChecksAndWrites : Prop :=
  decode 0x01#8 = .ok .dictLoad ∧
  (∀ s : State, s.faulted = false → s.dictReady = false → s.ops.se.length = 2048 →
    (∀ i j, i < j → j < 2048 → s.ops.se[i]? ≠ s.ops.se[j]?) →
    ∃ t, exec .dictLoad s = .next t ∧ t.st = 0#4 ∧ t.res = {} ∧ t.ops = s.ops ∧ t.ph = .idle ∧
      t.dictReady = true ∧ t.faulted = false ∧ t.freason = s.freason ∧
      (∀ idx < 2048, Memory.read t.dict idx = s.ops.se[idx]?) ∧
      (∀ idx, 2048 ≤ idx → Memory.read t.dict idx = Memory.read s.dict idx)) ∧
  (∀ s : State, s.faulted = false → s.dictReady = false →
    (s.ops.se.length ≠ 2048 ∨ ∃ i j, i < j ∧ j < 2048 ∧ s.ops.se[i]? = s.ops.se[j]?) →
    ∃ t, exec .dictLoad s = .next t ∧ EndsErr s t .dictInvalid) ∧
  (∀ s : State, s.faulted = false → s.dictReady = true →
    ∃ t, exec .dictLoad s = .next t ∧ EndsFault s t .dictAlreadyLoaded)

/-- 44_dictionary_system.md R102: DICT.WORD on an engine that is not faulted. -/
def Obligations.DictWordReadsEntry : Prop :=
  decode 0x44#8 = .ok .dictWord ∧
  (∀ (s : State) (w : Word), s.faulted = false → s.dictReady = true → s.ops.n.toNat < 2048 →
    Memory.read s.dict s.ops.n.toNat = some w →
    ∃ t, exec .dictWord s = .next t ∧ EndsOk s t { rwd := some w }) ∧
  (∀ s : State, s.faulted = false → s.dictReady = true → 2048 ≤ s.ops.n.toNat →
    ∃ t, exec .dictWord s = .next t ∧ EndsFault s t .indexOutOfRange) ∧
  (∀ s : State, s.faulted = false → s.dictReady = false →
    ∃ t, exec .dictWord s = .next t ∧ EndsFault s t .dictNotReady)

/-- 44_dictionary_system.md R103: DICT.INDEX on an engine that is not faulted; its dictionary, when
ready, is a complete one (an invariant of the machine, stated below). That a word is absent is told
right in every memory in canonical form, complete or not. -/
def Obligations.DictIndexFindsEntry : Prop :=
  decode 0x45#8 = .ok .dictIndex ∧
  (∀ (s : State) (idx : Nat), s.faulted = false → s.dictReady = true → s.dict.HoldsDictionary →
    Memory.read s.dict idx = some s.ops.wd →
    ∃ t x, exec .dictIndex s = .next t ∧ EndsOk s t { rn := some x } ∧ x.toNat = idx ∧ idx < 2048) ∧
  (∀ s : State, s.faulted = false → s.dictReady = true → s.dict.Lacks s.ops.wd →
    Memory.wf s.dict = true →
    ∃ t, exec .dictIndex s = .next t ∧ EndsErr s t .invalidWord) ∧
  (∀ s : State, s.faulted = false → s.dictReady = false →
    ∃ t, exec .dictIndex s = .next t ∧ EndsFault s t .dictNotReady)

/-- 70_reset_and_hazards.md R127: the readiness of the dictionary is tested before any operand, and the
violation leaves the engine faulted through every run that has no reset in it. -/
def Obligations.ReadinessPrecedesOperands : Prop :=
  (∀ (s : State) (i : Instr), i ∈ [.dictWord, .dictIndex, .mnEncode, .mnDecode] →
    s.faulted = false → s.dictReady = false →
    ∃ t, exec i s = .next t ∧ EndsFault s t .dictNotReady ∧
      ∀ (ps : List Operands) (u : State),
        session (ps.map HostEvent.present) t = .next u → u.faulted = true) ∧
  (∀ s : State, s.faulted = false → s.dictReady = true →
    ∃ t, exec .dictLoad s = .next t ∧ EndsFault s t .dictAlreadyLoaded)

/-- 20_memory.md R31, 44_dictionary_system.md R103: DICT.INDEX of the word that DICT.WORD read at an
index answers that index. -/
def Obligations.IndexOfWordIsIndex : Prop :=
  ∀ (s : State) (n : BitVec 16), s.Inv → s.faulted = false → s.dictReady = true → n.toNat < 2048 →
    ∃ w t u, issue .dictWord { noOperands with n := n } (fun r => r.rwd) s = .done w t ∧
      issue .dictIndex { noOperands with wd := w } (fun r => r.rn) t = .done n u

/-! ## BV -/

/-- 40_bitvector.md R60. The capacity is the machine's BV_CAP, whatever it is. -/
def Obligations.AppendConcatenates : Prop :=
  decode 0x10#8 = .ok .bvAppend ∧
  ∀ s : State, s.faulted = false →
    ∃ t, exec .bvAppend s = .next t ∧
      if Caps.holds Config.env.caps.bv (s.ops.va.length + s.ops.vb.length) = true
      then EndsOk s t { ra := some (s.ops.va ++ s.ops.vb) }
      else EndsFault s t .capacityOverflow

/-- 40_bitvector.md R61: RA is the first n bits, RB the remainder. -/
def Obligations.PopFrontSplits : Prop :=
  decode 0x11#8 = .ok .bvPopf ∧
  (∀ s : State, s.faulted = false → s.ops.n.toNat ≤ s.ops.va.length →
    ∃ t p r, exec .bvPopf s = .next t ∧ EndsOk s t { ra := some p, rb := some r } ∧
      p ++ r = s.ops.va ∧ p.length = s.ops.n.toNat) ∧
  (∀ s : State, s.faulted = false → s.ops.va.length < s.ops.n.toNat →
    ∃ t, exec .bvPopf s = .next t ∧ EndsFault s t .indexOutOfRange)

/-- 40_bitvector.md R62: RA is the prefix, RB the last n bits. -/
def Obligations.PopBackSplits : Prop :=
  decode 0x12#8 = .ok .bvPopb ∧
  (∀ s : State, s.faulted = false → s.ops.n.toNat ≤ s.ops.va.length →
    ∃ t p q, exec .bvPopb s = .next t ∧ EndsOk s t { ra := some p, rb := some q } ∧
      p ++ q = s.ops.va ∧ q.length = s.ops.n.toNat) ∧
  (∀ s : State, s.faulted = false → s.ops.va.length < s.ops.n.toNat →
    ∃ t, exec .bvPopb s = .next t ∧ EndsFault s t .indexOutOfRange)

/-- 40_bitvector.md R63: zeros on the left up to the target, never a truncation. -/
def Obligations.PadLeftPrependsZeros : Prop :=
  decode 0x13#8 = .ok .bvPadl ∧
  (∀ s : State, s.faulted = false → s.ops.n.toNat ≤ s.ops.va.length →
    ∃ t, exec .bvPadl s = .next t ∧ EndsOk s t { ra := some s.ops.va }) ∧
  (∀ s : State, s.faulted = false → s.ops.va.length < s.ops.n.toNat →
    ∃ t, exec .bvPadl s = .next t ∧
      if Caps.holds Config.env.caps.bv s.ops.n.toNat = true
      then EndsOk s t
        { ra := some (List.replicate (s.ops.n.toNat - s.ops.va.length) false ++ s.ops.va) }
      else EndsFault s t .capacityOverflow)

/-- 40_bitvector.md R65 laws 1 and 4 and R64, on the machine: popping undoes appending, on either side,
and popping the original length off the back of a padded vector gives the zeros and the vector. -/
def Obligations.PopsUndoAppendAndPad : Prop :=
  (∀ (s t : State) (a b v : Bits), s.faulted = false → a.length ≤ 65535 → b.length ≤ 65535 →
    issue .bvAppend { noOperands with va := a, vb := b } (fun r => r.ra) s = .done v t →
    (∃ u, issue .bvPopf { noOperands with va := v, n := BitVec.ofNat 16 a.length } readPair t = .done (a, b) u) ∧
    (∃ u, issue .bvPopb { noOperands with va := v, n := BitVec.ofNat 16 b.length } readPair t = .done (a, b) u)) ∧
  (∀ (s t : State) (v p : Bits) (n : BitVec 16), s.faulted = false → v.length ≤ n.toNat →
    issue .bvPadl { noOperands with va := v, n := n } (fun r => r.ra) s = .done p t →
    ∃ u, issue .bvPopb { noOperands with va := p, n := BitVec.ofNat 16 v.length } readPair t
      = .done (List.replicate (n.toNat - v.length) false, v) u)

/-- 00_scope.md R6, 30_encoding.md R51: BV_CAP is at least 264, so the four commands whose result can be
longer than every operand end Ok whenever that result has at most 264 bits. -/
def Obligations.ResultsUpTo264BitsNeverOverflow : Prop :=
  ∀ s : State, s.faulted = false →
    (s.ops.va.length + s.ops.vb.length ≤ 264 →
      ∃ t, exec .bvAppend s = .next t ∧ t.st = 0#4 ∧ t.res.ra ≠ none) ∧
    (s.ops.n.toNat ≤ 264 → ∃ t, exec .bvPadl s = .next t ∧ t.st = 0#4 ∧ t.res.ra ≠ none) ∧
    (8 * s.ops.by_.length ≤ 264 → ∃ t, exec .bbB2bits s = .next t ∧ t.st = 0#4 ∧ t.res.ra ≠ none) ∧
    (8 * s.ops.by_.length + min (s.ops.by_.length / 4) 8 ≤ 264 →
      ∃ t, exec .ckSign s = .next t ∧ t.st = 0#4 ∧ t.res.ra ≠ none)

/-! ## BB -/

/-- 41_bytebit.md R70, 20_memory.md R32: each bit of the result is the named bit of the named byte. -/
def Obligations.BytesToBitsMsbFirst : Prop :=
  decode 0x20#8 = .ok .bbB2bits ∧
  ∀ s : State, s.faulted = false →
    ∃ t, exec .bbB2bits s = .next t ∧
      if Caps.holds Config.env.caps.bv (8 * s.ops.by_.length) = true
      then ∃ v, EndsOk s t { ra := some v } ∧ IsBitsOf s.ops.by_ v
      else EndsFault s t .capacityOverflow

/-- 41_bytebit.md R71: whole bytes, or Fault(NotByteMultiple) and no bytes. -/
def Obligations.BitsToBytesWholeBytes : Prop :=
  decode 0x21#8 = .ok .bbBits2b ∧
  (∀ s : State, s.faulted = false → s.ops.va.length % 8 = 0 →
    ∃ t d, exec .bbBits2b s = .next t ∧ EndsOk s t { rby := some d } ∧ IsBitsOf d s.ops.va) ∧
  (∀ s : State, s.faulted = false → s.ops.va.length % 8 ≠ 0 →
    ∃ t, exec .bbBits2b s = .next t ∧ EndsFault s t .notByteMultiple)

/-- 41_bytebit.md R72: the two transcoders are mutually inverse, where the first of the two ends Ok;
BB.B2BITS distributes over concatenation; and the bits of one byte have its value, read as a number by
MN.C2I. -/
def Obligations.TranscodersMutuallyInverse : Prop :=
  (∀ (s t : State) (d : ByteSeq) (v : Bits), s.faulted = false →
    issue .bbB2bits { noOperands with by_ := d } (fun r => r.ra) s = .done v t →
    ∃ u, issue .bbBits2b { noOperands with va := v } (fun r => r.rby) t = .done d u) ∧
  (∀ (s t : State) (d : ByteSeq) (v : Bits), s.faulted = false →
    Caps.holds Config.env.caps.bv v.length = true →
    issue .bbBits2b { noOperands with va := v } (fun r => r.rby) s = .done d t →
    ∃ u, issue .bbB2bits { noOperands with by_ := d } (fun r => r.ra) t = .done v u) ∧
  (∀ (s t u w : State) (d e : ByteSeq) (v x y : Bits), s.faulted = false →
    issue .bbB2bits { noOperands with by_ := d } (fun r => r.ra) s = .done v t →
    issue .bbB2bits { noOperands with by_ := e } (fun r => r.ra) t = .done x u →
    issue .bbB2bits { noOperands with by_ := d ++ e } (fun r => r.ra) u = .done y w → y = v ++ x) ∧
  (∀ (s : State) (x : Byte), s.faulted = false →
    ∃ v y t u, issue .bbB2bits { noOperands with by_ := [x] } (fun r => r.ra) s = .done v t ∧
      issue .mnC2i { noOperands with va := v } (fun r => r.rn) t = .done y u ∧ y.toNat = x.toNat)

/-! ## CK -/

/-- 42_checksum.md R75: the LAST k bits of the first byte; only byte 0 of the 32 matters. -/
def Obligations.ExtractTakesLastBits : Prop :=
  decode 0x30#8 = .ok .ckExtract ∧
  (∀ s : State, s.faulted = false → s.ops.by_.length = 32 →
    ∃ t g0 c, s.ops.by_[0]? = some g0 ∧ exec .ckExtract s = .next t ∧
      EndsOk s t { ra := some c } ∧ IsChecksum g0 s.ops.n.toNat c) ∧
  (∀ s : State, s.faulted = false → s.ops.by_.length ≠ 32 →
    ∃ t, exec .ckExtract s = .next t ∧ EndsFault s t .badDigestLength)

/-- 42_checksum.md R76: k = (8 len) div 32 bits of the digest of the operand, no length check, no fault. -/
def Obligations.ComputeGivesChecksum : Prop :=
  decode 0x31#8 = .ok .ckCompute ∧
  ∀ s : State, s.faulted = false →
    ∃ t c, exec .ckCompute s = .next t ∧ EndsOk s t { ra := some c } ∧
      IsChecksum (Config.digest s.ops.by_)[0] (8 * s.ops.by_.length / 32) c

/-- 42_checksum.md R77: the entropy bits first, the checksum bits last. -/
def Obligations.SignAppendsChecksum : Prop :=
  decode 0x32#8 = .ok .ckSign ∧
  ∀ s : State, s.faulted = false →
    ∃ t p c, exec .ckSign s = .next t ∧ IsBitsOf s.ops.by_ p ∧
      IsChecksum (Config.digest s.ops.by_)[0] (8 * s.ops.by_.length / 32) c ∧
      if Caps.holds Config.env.caps.bv (8 * s.ops.by_.length + min (s.ops.by_.length / 4) 8) = true
      then EndsOk s t { ra := some (p ++ c) }
      else EndsFault s t .capacityOverflow

/-- 42_checksum.md R78 with the order of 60_exceptions.md R111: width, whole bytes, comparison. -/
def Obligations.ValidateComparesChecksum : Prop :=
  decode 0x33#8 = .ok .ckValidate ∧
  (∀ s : State, s.faulted = false → 8 < s.ops.va.length / 32 →
    ∃ t, exec .ckValidate s = .next t ∧ EndsFault s t .checksumWidth) ∧
  (∀ s : State, s.faulted = false → s.ops.va.length / 32 ≤ 8 →
    (s.ops.va.length - s.ops.va.length / 32) % 8 ≠ 0 →
    ∃ t, exec .ckValidate s = .next t ∧ EndsFault s t .notByteMultiple) ∧
  (∀ s : State, s.faulted = false → s.ops.va.length / 32 ≤ 8 →
    (s.ops.va.length - s.ops.va.length / 32) % 8 = 0 →
    ∃ t data claimed d c, exec .ckValidate s = .next t ∧
      data ++ claimed = s.ops.va ∧ claimed.length = s.ops.va.length / 32 ∧ IsBitsOf d data ∧
      IsChecksum (Config.digest d)[0] (s.ops.va.length / 32) c ∧
      (c = claimed → EndsOk s t {}) ∧ (c ≠ claimed → EndsErr s t .invalidChecksum))

/-- 42_checksum.md R79: what CK.SIGN made of at most 34 bytes validates; of 35 bytes or more it raises
ChecksumWidth. For every digest. -/
def Obligations.SignedBitsValidate : Prop :=
  ∀ (s t : State) (e : ByteSeq) (v : Bits), s.faulted = false →
    issue .ckSign { noOperands with by_ := e } (fun r => r.ra) s = .done v t →
    (e.length ≤ 34 →
      ∃ u, issue .ckValidate { noOperands with va := v } (fun _ => some ()) t = .done () u) ∧
    (35 ≤ e.length →
      ∃ u, issue .ckValidate { noOperands with va := v } (fun _ => some ()) t = .failed 15#4 u ∧ u.freason = 8#4)

/-- 42_checksum.md R80, for every digest, of a vector that validates and one that differs from it in the
one position p: an inverted checksum bit always fails; an inverted data bit fails exactly when the
checksum of the changed data differs from the claimed one. -/
def Obligations.OneFlippedBitDetectedAsStated : Prop :=
  (∀ (s t : State) (p : Nat) (b : Bool), s.faulted = false →
    exec .ckValidate s = .next t → t.st = 0#4 →
    s.ops.va.length - s.ops.va.length / 32 ≤ p → s.ops.va[p]? = some b →
    ∃ u, exec .ckValidate { s with ops := { s.ops with va := s.ops.va.set p (!b) } } = .next u ∧
      EndsErr { s with ops := { s.ops with va := s.ops.va.set p (!b) } } u .invalidChecksum) ∧
  (∀ (s t : State) (p : Nat) (b : Bool), s.faulted = false →
    exec .ckValidate s = .next t → t.st = 0#4 →
    p < s.ops.va.length - s.ops.va.length / 32 → s.ops.va[p]? = some b →
    ∃ u data claimed d c,
      exec .ckValidate { s with ops := { s.ops with va := s.ops.va.set p (!b) } } = .next u ∧
      data ++ claimed = s.ops.va ∧ claimed.length = s.ops.va.length / 32 ∧
      IsBitsOf d (data.set p (!b)) ∧ IsChecksum (Config.digest d)[0] (s.ops.va.length / 32) c ∧
      (c ≠ claimed → EndsErr { s with ops := { s.ops with va := s.ops.va.set p (!b) } } u .invalidChecksum) ∧
      (c = claimed → EndsOk { s with ops := { s.ops with va := s.ops.va.set p (!b) } } u {}))

/-! ## MN -/

/-- 43_mnemonic.md R85: exactly the byte lengths 16, 20, 24, 28, 32. -/
def Obligations.CheckLengthAcceptsFive : Prop :=
  decode 0x40#8 = .ok .mnChklen ∧
  (∀ s : State, s.faulted = false → s.ops.by_.length ∈ [16, 20, 24, 28, 32] →
    ∃ t, exec .mnChklen s = .next t ∧ EndsOk s t {}) ∧
  (∀ s : State, s.faulted = false → s.ops.by_.length ∉ [16, 20, 24, 28, 32] →
    ∃ t, exec .mnChklen s = .next t ∧ EndsErr s t .invalidEntropyLength)

/-- 43_mnemonic.md R86: exactly the word counts 12, 15, 18, 21, 24; needs no dictionary. -/
def Obligations.CheckWordCountAcceptsFive : Prop :=
  decode 0x41#8 = .ok .mnChkwc ∧
  (∀ s : State, s.faulted = false → s.ops.se.length ∈ [12, 15, 18, 21, 24] →
    ∃ t, exec .mnChkwc s = .next t ∧ EndsOk s t {}) ∧
  (∀ s : State, s.faulted = false → s.ops.se.length ∉ [12, 15, 18, 21, 24] →
    ∃ t, exec .mnChkwc s = .next t ∧ EndsErr s t .invalidMnemonicWordCount)

/-- 43_mnemonic.md R87: the big-endian value of a chunk of at most 16 bits. -/
def Obligations.ChunkToIndexIsValue : Prop :=
  decode 0x42#8 = .ok .mnC2i ∧
  (∀ s : State, s.faulted = false → s.ops.va.length ≤ 16 →
    ∃ t x, exec .mnC2i s = .next t ∧ EndsOk s t { rn := some x } ∧ x.toNat < 2 ^ s.ops.va.length ∧
      ∀ i < s.ops.va.length, s.ops.va[i]? = some (x.getLsbD (s.ops.va.length - 1 - i))) ∧
  (∀ s : State, s.faulted = false → 16 < s.ops.va.length →
    ∃ t, exec .mnC2i s = .next t ∧ EndsFault s t .chunkTooWide)

/-- 43_mnemonic.md R88: the low 11 bits of N, the top 5 discarded unexamined, for every N. -/
def Obligations.IndexToChunkKeepsLowBits : Prop :=
  decode 0x43#8 = .ok .mnI2c ∧
  ∀ s : State, s.faulted = false →
    ∃ t v, exec .mnI2c s = .next t ∧ EndsOk s t { ra := some v } ∧ v.length = 11 ∧
      ∀ i < 11, v[i]? = some (s.ops.n.getLsbD (10 - i))

/-- 43_mnemonic.md R89: the two halves of the slicer are inverse on their proper domains. -/
def Obligations.SlicerHalvesInverse : Prop :=
  (∀ (s : State) (c : Bits), s.faulted = false → c.length = 11 →
    ∃ x t u, issue .mnC2i { noOperands with va := c } (fun r => r.rn) s = .done x t ∧
      issue .mnI2c { noOperands with n := x } (fun r => r.ra) t = .done c u) ∧
  (∀ (s : State) (x : BitVec 16), s.faulted = false →
    ∃ c y t u, issue .mnI2c { noOperands with n := x } (fun r => r.ra) s = .done c t ∧
      issue .mnC2i { noOperands with va := c } (fun r => r.rn) t = .done y u ∧ y.toNat = x.toNat % 2048)

/-- 43_mnemonic.md R91 on an engine that is not faulted. With a complete dictionary and a valid length:
(8 len + k) div 11 words, word j the entry of bits 11j .. 11j+10 of the entropy bits followed by the
last k bits of the digest's first byte. Otherwise the error or the fault, the readiness first. -/
def Obligations.EncodeGivesSentence : Prop :=
  decode 0x46#8 = .ok .mnEncode ∧
  (∀ s : State, s.faulted = false → s.dictReady = true → s.dict.HoldsDictionary →
    s.ops.by_.length ∈ [16, 20, 24, 28, 32] →
    ∃ t ws p c, exec .mnEncode s = .next t ∧ EndsOk s t { rse := some ws } ∧
      IsBitsOf s.ops.by_ p ∧
      IsChecksum (Config.digest s.ops.by_)[0] (8 * s.ops.by_.length / 32) c ∧
      ws.length = (8 * s.ops.by_.length + 8 * s.ops.by_.length / 32) / 11 ∧
      (p ++ c).length = 11 * ws.length ∧
      ∀ j w, ws[j]? = some w → ∃ idx, Memory.read s.dict idx = some w ∧ IsChunk (p ++ c) j idx) ∧
  (∀ s : State, s.faulted = false → s.dictReady = true → s.ops.by_.length ∉ [16, 20, 24, 28, 32] →
    ∃ t, exec .mnEncode s = .next t ∧ EndsErr s t .invalidEntropyLength) ∧
  (∀ s : State, s.faulted = false → s.dictReady = false →
    ∃ t, exec .mnEncode s = .next t ∧ EndsFault s t .dictNotReady)

/-- 43_mnemonic.md R92 with the priority of 60_exceptions.md R111 on an engine that is not faulted: the
word count, then the first absent word, then the checksum over the recovered bytes. -/
def Obligations.DecodeGivesBytes : Prop :=
  decode 0x47#8 = .ok .mnDecode ∧
  (∀ s : State, s.faulted = false → s.dictReady = true → s.dict.HoldsDictionary →
    s.ops.se.length ∈ [12, 15, 18, 21, 24] → (∀ w ∈ s.ops.se, ¬ s.dict.Lacks w) →
    ∃ t v data claimed d c, exec .mnDecode s = .next t ∧ v.length = 11 * s.ops.se.length ∧
      (∀ j w, s.ops.se[j]? = some w → ∃ idx, Memory.read s.dict idx = some w ∧ IsChunk v j idx) ∧
      data ++ claimed = v ∧ claimed.length = v.length / 32 ∧ IsBitsOf d data ∧
      IsChecksum (Config.digest d)[0] (v.length / 32) c ∧
      (c = claimed → EndsOk s t { rby := some d }) ∧ (c ≠ claimed → EndsErr s t .invalidChecksum)) ∧
  (∀ (s : State) (w : Word), s.faulted = false → s.dictReady = true →
    s.ops.se.length ∈ [12, 15, 18, 21, 24] → Memory.wf s.dict = true → w ∈ s.ops.se → s.dict.Lacks w →
    ∃ t, exec .mnDecode s = .next t ∧ EndsErr s t .invalidWord) ∧
  (∀ s : State, s.faulted = false → s.dictReady = true → s.ops.se.length ∉ [12, 15, 18, 21, 24] →
    ∃ t, exec .mnDecode s = .next t ∧ EndsErr s t .invalidMnemonicWordCount) ∧
  (∀ s : State, s.faulted = false → s.dictReady = false →
    ∃ t, exec .mnDecode s = .next t ∧ EndsFault s t .dictNotReady)

/-- 43_mnemonic.md R96, for every digest and every loaded dictionary: the round trip of every valid
entropy, with its word count; the converse for every sentence that MN.DECODE accepts; and an unknown
word at any position of a sentence with a valid word count is InvalidWord. -/
def Obligations.EntropyAndSentenceRoundTrip : Prop :=
  (∀ (s : State) (e : ByteSeq), s.Inv → s.faulted = false → s.dictReady = true →
    e.length ∈ [16, 20, 24, 28, 32] →
    ∃ ws t u, issue .mnEncode { noOperands with by_ := e } (fun r => r.rse) s = .done ws t ∧
      ws.length = (8 * e.length + 8 * e.length / 32) / 11 ∧
      issue .mnDecode { noOperands with se := ws } (fun r => r.rby) t = .done e u) ∧
  (∀ (s t : State) (ws : Sentence) (e : ByteSeq), s.Inv → s.faulted = false → s.dictReady = true →
    issue .mnDecode { noOperands with se := ws } (fun r => r.rby) s = .done e t →
    ∃ u, issue .mnEncode { noOperands with by_ := e } (fun r => r.rse) t = .done ws u) ∧
  (∀ (s : State) (ws : Sentence) (w : Word), Memory.wf s.dict = true → s.faulted = false →
    s.dictReady = true → ws.length ∈ [12, 15, 18, 21, 24] → w ∈ ws → s.dict.Lacks w →
    ∃ t, issue .mnDecode { noOperands with se := ws } (fun r => r.rby) s = .failed 3#4 t)

/-- 43_mnemonic.md R93: MN.ENCODE and MN.DECODE give a host what it would get from the single commands,
the same result or the same first failure, on an engine with a loaded dictionary. -/
def Obligations.CompositesEqualTheirParts : Prop :=
  ∀ s : State, s.Inv → s.faulted = false → s.dictReady = true →
    (∀ e : ByteSeq, (hostEncode e s).verdict =
      (issue .mnEncode { noOperands with by_ := e } (fun r => r.rse) s).verdict) ∧
    (∀ ws : Sentence, (hostDecode ws s).verdict =
      (issue .mnDecode { noOperands with se := ws } (fun r => r.rby) s).verdict)

/-- 43_mnemonic.md R93: CK.COMPUTE, CK.SIGN and CK.VALIDATE give a host what BB, BV and CK.EXTRACT
commands and one digest give: for byte sequences whose length the port N can carry, and for vectors of at
most 287 bits (a longer one is ChecksumWidth, a guard the expansion does not have, R78). -/
def Obligations.ChecksumCommandsEqualTheirParts : Prop :=
  (∀ (s : State) (e : ByteSeq), s.faulted = false → e.length ≤ 65535 →
    (hostCompute e (Config.digest e) s).verdict =
      (issue .ckCompute { noOperands with by_ := e } (fun r => r.ra) s).verdict) ∧
  (∀ (s : State) (e : ByteSeq), s.faulted = false → e.length ≤ 65535 →
    (hostSign e (Config.digest e) s).verdict =
      (issue .ckSign { noOperands with by_ := e } (fun r => r.ra) s).verdict) ∧
  (∀ (s : State) (v : Bits), s.faulted = false → v.length ≤ 287 →
    (hostValidate Config.digest v s).verdict =
      (issue .ckValidate { noOperands with va := v } (fun _ => some ()) s).verdict)

/-! ## The whole machine -/

/-- The invariant of the machine (10_state.md R14, R16, R19; 20_memory.md R36) is kept by every step and
by a reset event, whatever ST and the scratch hold after it. -/
def Obligations.EveryStepKeepsInvariant : Prop :=
  (∀ s t : State, s.Inv → step s = .next t → t.Inv) ∧
  (∀ (s : State) (st : BitVec 4) (sc : Scratch), (s.afterReset st sc).Inv)

/-- The state right after reset meets the invariant, and has the reset values the spec gives
(10_state.md R22): STATUS 0, PH idle, no data result. -/
def Obligations.ResetMeetsInvariant : Prop :=
  State.reset.Inv ∧ State.reset.status = 0x00#8 ∧ State.reset.ph = .idle ∧ State.reset.res = {}

/-- 10_state.md R10, 60_exceptions.md R105, 43_mnemonic.md R94: from every state that meets the
invariant every transaction ends, for every command byte and every operands; and in no state at all
does the sequencer overrun its bound. -/
def Obligations.EveryTransactionEnds : Prop :=
  (∀ s : State, s.Inv → ∃ t, step s = .next t) ∧ (∀ s : State, step s ≠ .fault .sequencerOverrun)

/-- 10_state.md R12, R18; 30_encoding.md R51: if the operands fit their ports, the results of every
command fit theirs, for every capacities the spec allows; and nothing is truncated to fit: of the four
commands whose result can be longer than its port, the result has its full length or the command ends
in CapacityOverflow. -/
def Obligations.ResultsFitTheirPorts : Prop :=
  (∀ s t : State, s.operandsFit → step s = .next t → t.operandsFit ∧ t.resultsFit) ∧
  (∀ (s : State) (i : Instr) (len : Nat), s.operandsFit → s.faulted = false →
    fullLength i s.ops = some len →
    ∃ t, exec i s = .next t ∧
      if Caps.holds Config.env.caps.bv len = true
      then ∃ v, EndsOk s t { ra := some v } ∧ v.length = len
      else EndsFault s t .capacityOverflow)

/-- 10_state.md R20: the observable outcome of a transaction is a function of CMD, the operand ports,
STATUS and the dictionary: two engines that agree on these, and differ at will in ST, the result ports,
PH, the scratch and everything else, end alike. -/
def Obligations.OutcomeDependsOnInputsOnly : Prop :=
  ∀ s u : State, s.ops = u.ops → s.status = u.status → s.dict = u.dict →
    observableEnd (step s) = observableEnd (step u)

/-- 10_state.md R11: "A command reads only the ports this table lists for it". -/
def Obligations.UnlistedPortsDoNotMatter : Prop :=
  ∀ (i : Instr) (s : State),
    observableEnd (exec i s) = observableEnd (exec i { s with ops := Operands.listed i s.ops })

/-- 30_encoding.md R47: on Ok a command writes exactly the result ports its row lists; it ends in no
typed error and no violation but those of its row. -/
def Obligations.OutcomesAreThoseOfTheTable : Prop :=
  ∀ (i : Instr) (s t : State), exec i s = .next t → (i ≠ .sysRdst → s.faulted = false) →
    (t.st = 0#4 ∧ t.res.shape = writesOnOk i) ∨
    (∃ e ∈ possibleErrors i, EndsErr s t e) ∨ (∃ v ∈ possibleViolations i, EndsFault s t v)

/-- 10_state.md R13: ST is written at the end of every transaction with one of the codes 0 to 5 and 15. -/
def Obligations.StatusCodesAreLegal : Prop :=
  ∀ s t : State, step s = .next t → legalSt t.st = true

/-- 60_exceptions.md R112: errors and faults are precise. That the data result ports then hold no value is
10_state.md R12, R113 and R114; of a command refused while FAULT = 1 it is the model's reading of "no
result" (DEDUCED, log 17). -/
def Obligations.FailuresArePrecise : Prop :=
  ∀ s t : State, step s = .next t → t.st ≠ 0#4 →
    t.res = {} ∧ t.dict = s.dict ∧ t.ops = s.ops ∧ t.dictReady = s.dictReady ∧ t.ph = .idle ∧
    (t.st ≠ 15#4 → t.status = s.status) ∧ (t.st = 15#4 → t.faulted = true) ∧
    (s.faulted = true → t.status = s.status)

/-- 10_state.md R11: "no command changes an operand port". -/
def Obligations.OperandPortsNeverChange : Prop :=
  ∀ s t : State, step s = .next t → t.ops = s.ops

/-- 10_state.md R15: FAULT is set only by a Fault outcome and cleared only by reset; DICT_READY is set
only by a successful DICT.LOAD and cleared only by reset. -/
def Obligations.StatusBitsChangeOnlyAsStated : Prop :=
  (∀ s t : State, step s = .next t →
    (t.faulted ≠ s.faulted → t.faulted = true ∧ t.st = 15#4) ∧
    (t.dictReady ≠ s.dictReady →
      t.dictReady = true ∧ t.st = 0#4 ∧ decode s.ops.cmd = .ok .dictLoad)) ∧
  (∀ (s : State) (st : BitVec 4) (sc : Scratch),
    (s.afterReset st sc).faulted = false ∧ (s.afterReset st sc).dictReady = false)

/-- 10_state.md R19, 44_dictionary_system.md R104: the dictionary is written by DICT.LOAD alone, and
never once it is ready. -/
def Obligations.DictionaryWrittenOnlyByLoad : Prop :=
  (∀ (i : Instr) (s t : State), i ≠ .dictLoad → exec i s = .next t →
    ∀ idx, Memory.read t.dict idx = Memory.read s.dict idx) ∧
  (∀ s t : State, s.dictReady = true → step s = .next t →
    t.dictReady = true ∧ t.dict = s.dict)

/-- 60_exceptions.md R109, R114: the fault latch is sticky and keeps the first reason: whatever a host
presents to a faulted engine, any number of times without a reset, STATUS and the dictionary stay. -/
def Obligations.FaultLatchIsSticky : Prop :=
  ∀ (ps : List Operands) (s t : State), s.faulted = true →
    session (ps.map HostEvent.present) s = .next t → t.status = s.status ∧ t.dict = s.dict

/-- 10_state.md R19, R21: once ready, the dictionary stays as it is through every run without a reset. -/
def Obligations.DictionaryImmutableOnceReady : Prop :=
  ∀ (ps : List Operands) (s t : State), s.dictReady = true →
    session (ps.map HostEvent.present) s = .next t → t.dictReady = true ∧ t.dict = s.dict

/-- 70_reset_and_hazards.md R125, 10_state.md R22: what reset does, for whatever ST and the scratch hold
after it; the operand ports stay the host's (that clause is DEDUCED, log 11). -/
def Obligations.ResetClearsTheEngine : Prop :=
  ∀ (s : State) (st : BitVec 4) (sc : Scratch),
    (s.afterReset st sc).status = 0x00#8 ∧ (s.afterReset st sc).res = {} ∧
    (s.afterReset st sc).ph = .idle ∧ (s.afterReset st sc).ops = s.ops

/-- 70_reset_and_hazards.md R126: the boot sequence from any state: reset, DICT.LOAD of a list of 2048
different words, SYS.RDST; it ends Ok with RN = 1, not faulted, the list in the dictionary. -/
def Obligations.BootReachesReady : Prop :=
  ∀ (s : State) (l : Sentence), l.length = 2048 → l.Nodup →
    ∃ t, session [.reset, .present { noOperands with cmd := 0x01#8, se := l },
        .present { noOperands with cmd := 0x00#8 }] s = .next t ∧
      t.st = 0#4 ∧ t.res = { rn := some 1#16 } ∧ t.faulted = false ∧ t.dictReady = true ∧
      t.dict.HoldsDictionary ∧ ∀ idx < 2048, Memory.read t.dict idx = l[idx]?
end

