-- ==== Sys2Proof/Laws/State.lean ====
section
/-! SUPPORT. One lemma per field and update of State, each true by rfl, so that no later proof unfolds
a record update. -/

namespace Sys2Proof.Machine

/-! ### writeResults -/

@[simp] theorem writeResults_ops (s : State) (r : Results) :
    (s.writeResults r).ops = s.ops := rfl
@[simp] theorem writeResults_st (s : State) (r : Results) :
    (s.writeResults r).st = s.st := rfl
@[simp] theorem writeResults_res (s : State) (r : Results) :
    (s.writeResults r).res = r := rfl
@[simp] theorem writeResults_status (s : State) (r : Results) :
    (s.writeResults r).status = s.status := rfl
@[simp] theorem writeResults_dict (s : State) (r : Results) :
    (s.writeResults r).dict = s.dict := rfl
@[simp] theorem writeResults_ph (s : State) (r : Results) :
    (s.writeResults r).ph = s.ph := rfl
@[simp] theorem writeResults_scratch (s : State) (r : Results) :
    (s.writeResults r).scratch = s.scratch := rfl
@[simp] theorem writeResults_txn (s : State) (r : Results) :
    (s.writeResults r).txn = s.txn := rfl

/-! ### setReady -/

@[simp] theorem setReady_ops (s : State) :
    s.setReady.ops = s.ops := rfl
@[simp] theorem setReady_st (s : State) :
    s.setReady.st = s.st := rfl
@[simp] theorem setReady_res (s : State) :
    s.setReady.res = s.res := rfl
@[simp] theorem setReady_status (s : State) :
    s.setReady.status = statusWord s.freason s.faulted true := rfl
@[simp] theorem setReady_dict (s : State) :
    s.setReady.dict = s.dict := rfl
@[simp] theorem setReady_ph (s : State) :
    s.setReady.ph = s.ph := rfl
@[simp] theorem setReady_scratch (s : State) :
    s.setReady.scratch = s.scratch := rfl
@[simp] theorem setReady_txn (s : State) :
    s.setReady.txn = s.txn := rfl

/-! ### latchFault -/

@[simp] theorem latchFault_ops (s : State) (v : Violation) :
    (s.latchFault v).ops = s.ops := rfl
@[simp] theorem latchFault_st (s : State) (v : Violation) :
    (s.latchFault v).st = s.st := rfl
@[simp] theorem latchFault_res (s : State) (v : Violation) :
    (s.latchFault v).res = s.res := rfl
@[simp] theorem latchFault_status (s : State) (v : Violation) :
    (s.latchFault v).status = statusWord (violationCode v) true s.dictReady := rfl
@[simp] theorem latchFault_dict (s : State) (v : Violation) :
    (s.latchFault v).dict = s.dict := rfl
@[simp] theorem latchFault_ph (s : State) (v : Violation) :
    (s.latchFault v).ph = s.ph := rfl
@[simp] theorem latchFault_scratch (s : State) (v : Violation) :
    (s.latchFault v).scratch = s.scratch := rfl
@[simp] theorem latchFault_txn (s : State) (v : Violation) :
    (s.latchFault v).txn = s.txn := rfl

/-! ### endTransaction -/

@[simp] theorem endTransaction_ops (s : State) (st : BitVec 4) (r : Results) :
    (endTransaction s st r).ops = s.ops := rfl
@[simp] theorem endTransaction_st (s : State) (st : BitVec 4) (r : Results) :
    (endTransaction s st r).st = st := rfl
@[simp] theorem endTransaction_res (s : State) (st : BitVec 4) (r : Results) :
    (endTransaction s st r).res = r := rfl
@[simp] theorem endTransaction_status (s : State) (st : BitVec 4) (r : Results) :
    (endTransaction s st r).status = s.status := rfl
@[simp] theorem endTransaction_dict (s : State) (st : BitVec 4) (r : Results) :
    (endTransaction s st r).dict = s.dict := rfl
@[simp] theorem endTransaction_ph (s : State) (st : BitVec 4) (r : Results) :
    (endTransaction s st r).ph = .idle := rfl
@[simp] theorem endTransaction_scratch (s : State) (st : BitVec 4) (r : Results) :
    (endTransaction s st r).scratch = Config.freeScratch s.txn := rfl
@[simp] theorem endTransaction_txn (s : State) (st : BitVec 4) (r : Results) :
    (endTransaction s st r).txn = s.txn + 1 := rfl

/-! ### takeOk -/

@[simp] theorem takeOk_ops (s : State) :
    (takeOk s).ops = s.ops := rfl
@[simp] theorem takeOk_st (s : State) :
    (takeOk s).st = 0#4 := rfl
@[simp] theorem takeOk_res (s : State) :
    (takeOk s).res = s.res := rfl
@[simp] theorem takeOk_status (s : State) :
    (takeOk s).status = s.status := rfl
@[simp] theorem takeOk_dict (s : State) :
    (takeOk s).dict = s.dict := rfl
@[simp] theorem takeOk_ph (s : State) :
    (takeOk s).ph = .idle := rfl
@[simp] theorem takeOk_scratch (s : State) :
    (takeOk s).scratch = Config.freeScratch s.txn := rfl
@[simp] theorem takeOk_txn (s : State) :
    (takeOk s).txn = s.txn + 1 := rfl

/-! ### takeError -/

@[simp] theorem takeError_ops (s : State) (e : TypedError) :
    (takeError s e).ops = s.ops := rfl
@[simp] theorem takeError_st (s : State) (e : TypedError) :
    (takeError s e).st = errorCode e := rfl
@[simp] theorem takeError_res (s : State) (e : TypedError) :
    (takeError s e).res = {} := rfl
@[simp] theorem takeError_status (s : State) (e : TypedError) :
    (takeError s e).status = s.status := rfl
@[simp] theorem takeError_dict (s : State) (e : TypedError) :
    (takeError s e).dict = s.dict := rfl
@[simp] theorem takeError_ph (s : State) (e : TypedError) :
    (takeError s e).ph = .idle := rfl
@[simp] theorem takeError_scratch (s : State) (e : TypedError) :
    (takeError s e).scratch = Config.freeScratch s.txn := rfl
@[simp] theorem takeError_txn (s : State) (e : TypedError) :
    (takeError s e).txn = s.txn + 1 := rfl

/-! ### takeFault -/

@[simp] theorem takeFault_ops (s : State) (v : Violation) :
    (takeFault s v).ops = s.ops := rfl
@[simp] theorem takeFault_st (s : State) (v : Violation) :
    (takeFault s v).st = 15#4 := rfl
@[simp] theorem takeFault_res (s : State) (v : Violation) :
    (takeFault s v).res = {} := rfl
@[simp] theorem takeFault_status (s : State) (v : Violation) :
    (takeFault s v).status = statusWord (violationCode v) true s.dictReady := rfl
@[simp] theorem takeFault_dict (s : State) (v : Violation) :
    (takeFault s v).dict = s.dict := rfl
@[simp] theorem takeFault_ph (s : State) (v : Violation) :
    (takeFault s v).ph = .idle := rfl
@[simp] theorem takeFault_scratch (s : State) (v : Violation) :
    (takeFault s v).scratch = Config.freeScratch s.txn := rfl
@[simp] theorem takeFault_txn (s : State) (v : Violation) :
    (takeFault s v).txn = s.txn + 1 := rfl

/-! ### refuseLatched -/

@[simp] theorem refuseLatched_ops (s : State) :
    (refuseLatched s).ops = s.ops := rfl
@[simp] theorem refuseLatched_st (s : State) :
    (refuseLatched s).st = 15#4 := rfl
@[simp] theorem refuseLatched_res (s : State) :
    (refuseLatched s).res = {} := rfl
@[simp] theorem refuseLatched_status (s : State) :
    (refuseLatched s).status = s.status := rfl
@[simp] theorem refuseLatched_dict (s : State) :
    (refuseLatched s).dict = s.dict := rfl
@[simp] theorem refuseLatched_ph (s : State) :
    (refuseLatched s).ph = .idle := rfl
@[simp] theorem refuseLatched_scratch (s : State) :
    (refuseLatched s).scratch = Config.freeScratch s.txn := rfl
@[simp] theorem refuseLatched_txn (s : State) :
    (refuseLatched s).txn = s.txn + 1 := rfl

/-! ### afterReset -/

@[simp] theorem afterReset_ops (s : State) (st : BitVec 4) (sc : Scratch) :
    (s.afterReset st sc).ops = s.ops := rfl
@[simp] theorem afterReset_st (s : State) (st : BitVec 4) (sc : Scratch) :
    (s.afterReset st sc).st = st := rfl
@[simp] theorem afterReset_res (s : State) (st : BitVec 4) (sc : Scratch) :
    (s.afterReset st sc).res = {} := rfl
@[simp] theorem afterReset_status (s : State) (st : BitVec 4) (sc : Scratch) :
    (s.afterReset st sc).status = 0#8 := rfl
@[simp] theorem afterReset_dict (s : State) (st : BitVec 4) (sc : Scratch) :
    (s.afterReset st sc).dict = [] := rfl
@[simp] theorem afterReset_ph (s : State) (st : BitVec 4) (sc : Scratch) :
    (s.afterReset st sc).ph = .idle := rfl
@[simp] theorem afterReset_scratch (s : State) (st : BitVec 4) (sc : Scratch) :
    (s.afterReset st sc).scratch = sc := rfl
@[simp] theorem afterReset_txn (s : State) (st : BitVec 4) (sc : Scratch) :
    (s.afterReset st sc).txn = s.txn + 1 := rfl

/-! ### Presenting a command -/

@[simp] theorem withFetchWord_cmd (s : State) (nbits w : Nat) :
    (s.withFetchWord nbits w).ops.cmd = BitVec.ofNat 8 (w % 2 ^ nbits) := rfl
@[simp] theorem withFetchWord_status (s : State) (nbits w : Nat) :
    (s.withFetchWord nbits w).status = s.status := rfl
@[simp] theorem withFetchWord_dict (s : State) (nbits w : Nat) :
    (s.withFetchWord nbits w).dict = s.dict := rfl

@[simp] theorem present_ops (s : State) (i : Instr) (p : Operands) :
    (s.present i p).ops = { p with cmd := encode i } := rfl
@[simp] theorem present_status (s : State) (i : Instr) (p : Operands) :
    (s.present i p).status = s.status := rfl
@[simp] theorem present_dict (s : State) (i : Instr) (p : Operands) :
    (s.present i p).dict = s.dict := rfl
@[simp] theorem present_dictReady (s : State) (i : Instr) (p : Operands) :
    (s.present i p).dictReady = s.dictReady := rfl
@[simp] theorem present_faulted (s : State) (i : Instr) (p : Operands) :
    (s.present i p).faulted = s.faulted := rfl

/-! ### The ports -/

@[simp] theorem portCmd_eq (s : State) : portCmd s = s.ops.cmd := rfl
@[simp] theorem portVa_eq (s : State) : portVa s = s.ops.va := rfl
@[simp] theorem portVb_eq (s : State) : portVb s = s.ops.vb := rfl
@[simp] theorem portN_eq (s : State) : portN s = s.ops.n.toNat := rfl
@[simp] theorem portBy_eq (s : State) : portBy s = s.ops.by_ := rfl
@[simp] theorem portSe_eq (s : State) : portSe s = s.ops.se := rfl
@[simp] theorem portWd_eq (s : State) : portWd s = s.ops.wd := rfl

end Sys2Proof.Machine
end

