-- ==== Sys2Proof/Laws/Flags.lean ====
section
/-! SUPPORT. The STATUS register and the status codes: each field of a word put together reads back,
and what every update of STATUS does to every field. -/

namespace Sys2Proof.Machine

@[simp] theorem statusReady_statusWord (r : BitVec 4) (f d : Bool) :
    statusReady (statusWord r f d) = d := by
  revert r f d; decide

@[simp] theorem statusFault_statusWord (r : BitVec 4) (f d : Bool) :
    statusFault (statusWord r f d) = f := by
  revert r f d; decide

@[simp] theorem statusReason_statusWord (r : BitVec 4) (f d : Bool) :
    statusReason (statusWord r f d) = r := by
  revert r f d; decide

/-- STATUS as a number: 16 FREASON + 2 FAULT + DICT_READY (44_dictionary_system.md R100). -/
theorem statusWord_toNat (r : BitVec 4) (f d : Bool) :
    (statusWord r f d).toNat = 16 * r.toNat + 2 * f.toNat + d.toNat := by
  revert r f d; decide

/-- Putting a legal word together again from its fields changes nothing. -/
theorem statusWord_of_legal (b : BitVec 8) (h : legalStatus b = true) :
    statusWord (statusReason b) (statusFault b) (statusReady b) = b := by
  revert b; decide

/-- A STATUS word is legal exactly if its reason is 0 without a fault and 1..9 with one. -/
theorem legalStatus_statusWord (r : BitVec 4) (f d : Bool) :
    legalStatus (statusWord r f d) =
      if f then decide (1 ≤ r.toNat ∧ r.toNat ≤ 9) else decide (r = 0#4) := by
  revert r f d; decide

/-- Setting DICT_READY alone keeps STATUS legal. -/
theorem legalStatus_setReady (b : BitVec 8) (h : legalStatus b = true) :
    legalStatus (statusWord (statusReason b) (statusFault b) true) = true := by
  revert b; decide

/-- Every violation has a reason in 1..9, so latching one leaves STATUS legal. -/
theorem legalStatus_latch (v : Violation) (d : Bool) :
    legalStatus (statusWord (violationCode v) true d) = true := by
  cases v <;> cases d <;> decide

theorem errorCode_ne_zero (e : TypedError) : errorCode e ≠ 0#4 := by cases e <;> decide
theorem errorCode_ne_faulted (e : TypedError) : errorCode e ≠ 15#4 := by cases e <;> decide
theorem legalSt_errorCode (e : TypedError) : legalSt (errorCode e) = true := by cases e <;> decide

theorem errorCode_injective (e e' : TypedError) (h : errorCode e = errorCode e') : e = e' := by
  revert h; cases e <;> cases e' <;> decide

theorem violationCode_injective (v v' : Violation) (h : violationCode v = violationCode v') : v = v' := by
  revert h; cases v <;> cases v' <;> decide

theorem stOk_eq : stOk = 0#4 := rfl
theorem stFaulted_eq : stFaulted = 15#4 := rfl

/-! ### DICT_READY, FAULT and FREASON through the updates -/

@[simp] theorem setReady_dictReady (s : State) : s.setReady.dictReady = true := by
  simp [State.dictReady]
@[simp] theorem setReady_faulted (s : State) : s.setReady.faulted = s.faulted := by
  simp [State.faulted]
@[simp] theorem setReady_freason (s : State) : s.setReady.freason = s.freason := by
  simp [State.freason]
@[simp] theorem latchFault_dictReady (s : State) (v : Violation) :
    (s.latchFault v).dictReady = s.dictReady := by simp [State.dictReady]
@[simp] theorem latchFault_faulted (s : State) (v : Violation) :
    (s.latchFault v).faulted = true := by simp [State.faulted]
@[simp] theorem latchFault_freason (s : State) (v : Violation) :
    (s.latchFault v).freason = violationCode v := by simp [State.freason]

@[simp] theorem writeResults_dictReady (s : State) (r : Results) :
    (s.writeResults r).dictReady = s.dictReady := rfl
@[simp] theorem writeResults_faulted (s : State) (r : Results) :
    (s.writeResults r).faulted = s.faulted := rfl
@[simp] theorem takeOk_dictReady (s : State) : (takeOk s).dictReady = s.dictReady := rfl
@[simp] theorem takeOk_faulted (s : State) : (takeOk s).faulted = s.faulted := rfl
@[simp] theorem takeOk_freason (s : State) : (takeOk s).freason = s.freason := rfl
@[simp] theorem takeError_dictReady (s : State) (e : TypedError) :
    (takeError s e).dictReady = s.dictReady := rfl
@[simp] theorem takeError_faulted (s : State) (e : TypedError) :
    (takeError s e).faulted = s.faulted := rfl
@[simp] theorem takeError_freason (s : State) (e : TypedError) :
    (takeError s e).freason = s.freason := rfl
@[simp] theorem takeFault_dictReady (s : State) (v : Violation) :
    (takeFault s v).dictReady = s.dictReady := by simp [State.dictReady]
@[simp] theorem takeFault_faulted (s : State) (v : Violation) :
    (takeFault s v).faulted = true := by simp [State.faulted]
@[simp] theorem takeFault_freason (s : State) (v : Violation) :
    (takeFault s v).freason = violationCode v := by simp [State.freason]
@[simp] theorem refuseLatched_dictReady (s : State) : (refuseLatched s).dictReady = s.dictReady := rfl
@[simp] theorem refuseLatched_faulted (s : State) : (refuseLatched s).faulted = s.faulted := rfl
@[simp] theorem refuseLatched_freason (s : State) : (refuseLatched s).freason = s.freason := rfl
@[simp] theorem afterReset_dictReady (s : State) (st : BitVec 4) (sc : Scratch) :
    (s.afterReset st sc).dictReady = false := by simp [State.dictReady, statusReady]
@[simp] theorem afterReset_faulted (s : State) (st : BitVec 4) (sc : Scratch) :
    (s.afterReset st sc).faulted = false := by simp [State.faulted, statusFault]

end Sys2Proof.Machine
end

