-- ==== Sys2Proof/Laws/Transaction.lean ====
section
/-! SUPPORT. What a transaction can do, said once: the calculus of `Txn`, and the ends of a
transaction. Later proofs cite these and unfold neither `perform` nor `settle`. -/

namespace Sys2Proof.Machine

variable {α β : Type}

/-! ### Sequencing -/

@[simp] theorem Txn.bind_ok (a : α) (f : α → Txn β) : (Txn.ok a).bind f = f a := rfl
@[simp] theorem Txn.bind_err (e : TypedError) (f : α → Txn β) : (Txn.err e).bind f = .err e := rfl
@[simp] theorem Txn.bind_violation (v : Violation) (f : α → Txn β) :
    (Txn.violation v).bind f = .violation v := rfl
@[simp] theorem Txn.bind_stuck (g : Fault) (f : α → Txn β) : (Txn.stuck g).bind f = .stuck g := rfl

theorem Txn.bind_eq_ok {t : Txn α} {f : α → Txn β} {b : β} :
    t.bind f = .ok b ↔ ∃ a, t = .ok a ∧ f a = .ok b := by
  cases t <;> simp

theorem Txn.bind_eq_err {t : Txn α} {f : α → Txn β} {e : TypedError} :
    t.bind f = .err e ↔ t = .err e ∨ ∃ a, t = .ok a ∧ f a = .err e := by
  cases t <;> simp

theorem Txn.bind_eq_violation {t : Txn α} {f : α → Txn β} {v : Violation} :
    t.bind f = .violation v ↔ t = .violation v ∨ ∃ a, t = .ok a ∧ f a = .violation v := by
  cases t <;> simp

theorem Txn.bind_eq_stuck {t : Txn α} {f : α → Txn β} {g : Fault} :
    t.bind f = .stuck g ↔ t = .stuck g ∨ ∃ a, t = .ok a ∧ f a = .stuck g := by
  cases t <;> simp

/-! ### The checks -/

@[simp] theorem checkNot_false (v : Violation) : checkNot false v = .ok () := rfl
@[simp] theorem checkNot_true (v : Violation) : checkNot true v = .violation v := rfl
@[simp] theorem require_true (e : TypedError) : require true e = .ok () := rfl
@[simp] theorem require_false (e : TypedError) : require false e = .err e := rfl

theorem checkNot_eq_ok {b : Bool} {v : Violation} {u : Unit} : checkNot b v = .ok u ↔ b = false := by
  cases b <;> simp
theorem checkNot_ne_err {b : Bool} {v : Violation} {e : TypedError} : checkNot b v ≠ .err e := by
  cases b <;> simp
theorem checkNot_eq_violation {b : Bool} {v w : Violation} :
    checkNot b v = .violation w ↔ b = true ∧ v = w := by
  cases b <;> simp
theorem checkNot_ne_stuck {b : Bool} {v : Violation} {g : Fault} : checkNot b v ≠ .stuck g := by
  cases b <;> simp
theorem require_eq_ok {b : Bool} {e : TypedError} {u : Unit} : require b e = .ok u ↔ b = true := by
  cases b <;> simp
theorem require_eq_err {b : Bool} {e e' : TypedError} : require b e = .err e' ↔ b = false ∧ e = e' := by
  cases b <;> simp
theorem require_ne_violation {b : Bool} {e : TypedError} {v : Violation} :
    require b e ≠ .violation v := by
  cases b <;> simp
theorem require_ne_stuck {b : Bool} {e : TypedError} {g : Fault} : require b e ≠ .stuck g := by
  cases b <;> simp

/-- Every legal BV_CAP holds the vectors of the composites (00_scope.md R6). -/
theorem holds_bv_of_le (c : Caps) (len : Nat) (h : len ≤ 264) :
    Caps.holds (Config.clampCaps c).bv len = true := by
  rcases c with ⟨_ | b, y, w⟩ <;> simp [Caps.holds, Config.clampCaps]
  omega

theorem fitBits_of_holds {env : Env} {v : Bits} (h : Caps.holds env.caps.bv v.length = true) :
    fitBits env v = .ok v := by
  simp [fitBits, h]

theorem fitBits_env_of_le {v : Bits} (h : v.length ≤ 264) : fitBits Config.env v = .ok v :=
  fitBits_of_holds (holds_bv_of_le _ _ h)

/-- Under the machine's parameters a vector that fits its port comes back whole; one that does not
raises CapacityOverflow. -/
theorem fitBits_cases (v : Bits) :
    (Caps.holds Config.env.caps.bv v.length = true ∧ fitBits Config.env v = .ok v) ∨
    (Caps.holds Config.env.caps.bv v.length = false ∧
      fitBits Config.env v = .violation .capacityOverflow) := by
  by_cases hl : v.length ≤ 264
  · exact .inl ⟨holds_bv_of_le _ _ hl, fitBits_env_of_le hl⟩
  · cases h : Caps.holds Config.env.caps.bv v.length
    · exact .inr ⟨rfl, by simp [fitBits, h, hl]⟩
    · exact .inl ⟨rfl, fitBits_of_holds h⟩

/-- The machine's capacities are legal ones (00_scope.md R6). -/
theorem clampCaps_wellFormed (c : Caps) : (Config.clampCaps c).wellFormed = true := by
  rcases c with ⟨_ | b, _ | y, _ | w⟩ <;>
    simp [Caps.wellFormed, Config.clampCaps, Caps.atLeast] <;> omega

/-- Every legal choice of capacities is one the machine may have: clamping leaves it as it is. -/
theorem clampCaps_of_wellFormed (c : Caps) (h : c.wellFormed = true) : Config.clampCaps c = c := by
  rcases c with ⟨_ | b, _ | y, _ | w⟩ <;>
    simp_all [Caps.wellFormed, Config.clampCaps, Caps.atLeast]

/-! ### The ends -/

theorem takeOk_ends (s : State) (r : Results) : EndsOk s (takeOk (s.writeResults r)) r :=
  ⟨rfl, rfl, rfl, rfl, rfl, rfl⟩

theorem takeError_ends (s : State) (e : TypedError) : EndsErr s (takeError s e) e :=
  ⟨rfl, rfl, rfl, rfl, rfl, rfl⟩

theorem takeFault_ends (s : State) (v : Violation) : EndsFault s (takeFault s v) v :=
  ⟨rfl, rfl, rfl, by simp, by simp, by simp, rfl, rfl⟩

theorem refuseLatched_ends (s : State) : EndsRefused s (refuseLatched s) :=
  ⟨rfl, rfl, rfl, rfl, rfl, rfl⟩

/-- All that `settle` can answer with a next state. -/
theorem settle_next {s u : State} {t : Txn State} :
    settle s t = .next u ↔
      (∃ a, t = .ok a ∧ u = takeOk a) ∨ (∃ e, t = .err e ∧ u = takeError s e) ∨
      (∃ v, t = .violation v ∧ u = takeFault s v) := by
  cases t <;> simp [settle, eq_comm]

/-- All that `perform` can answer with a next state. -/
theorem perform_next {s u : State} {t : Txn State} :
    perform s t = .next u ↔
      (s.faulted = true ∧ u = refuseLatched s) ∨
      (s.faulted = false ∧
        ((∃ a, t = .ok a ∧ u = takeOk a) ∨ (∃ e, t = .err e ∧ u = takeError s e) ∨
         (∃ v, t = .violation v ∧ u = takeFault s v))) := by
  unfold perform
  cases s.faulted
  · simp [settle_next]
  · simp [eq_comm]

theorem perform_faulted {s : State} (h : s.faulted = true) (t : Txn State) :
    perform s t = .next (refuseLatched s) := by simp [perform, h]

theorem perform_ok {s : State} (h : s.faulted = false) (a : State) :
    perform s (.ok a) = .next (takeOk a) := by simp [perform, h, settle]

theorem perform_err {s : State} (h : s.faulted = false) (e : TypedError) :
    perform s (.err e) = .next (takeError s e) := by simp [perform, h, settle]

theorem perform_violation {s : State} (h : s.faulted = false) (v : Violation) :
    perform s (.violation v) = .next (takeFault s v) := by simp [perform, h, settle]

/-- The readiness test of the dictionary readers. -/
theorem requireReady_ready {s : State} (h : s.dictReady = true) : requireReady s = .ok () := by
  simp [requireReady, h]

theorem requireReady_unready {s : State} (h : s.dictReady = false) :
    requireReady s = .violation .dictNotReady := by
  simp [requireReady, h]

end Sys2Proof.Machine
end

