-- ==== Sys2Proof/Laws/Bits.lean ====
section
/-! SUPPORT. Bit sequences as numbers (00_scope.md R7). -/

namespace Sys2Proof.Machine

theorem val_foldl (v : Bits) (acc : Nat) :
    v.foldl (fun a b => 2 * a + b.toNat) acc = acc * 2 ^ v.length + val v := by
  induction v generalizing acc with
  | nil => simp [val]
  | cons b v ih =>
    simp only [List.foldl_cons, List.length_cons, val]
    rw [ih, ih (2 * 0 + b.toNat)]
    ring

@[simp] theorem val_nil : val [] = 0 := rfl

theorem val_cons (b : Bool) (v : Bits) : val (b :: v) = b.toNat * 2 ^ v.length + val v := by
  have := val_foldl v (2 * 0 + b.toNat)
  simpa [val] using this

theorem val_append (u v : Bits) : val (u ++ v) = val u * 2 ^ v.length + val v := by
  unfold val
  rw [List.foldl_append, val_foldl]
  rfl

theorem val_lt (v : Bits) : val v < 2 ^ v.length := by
  induction v with
  | nil => simp
  | cons b v ih =>
    rw [val_cons, List.length_cons, pow_succ]
    cases b <;> simp <;> omega

@[simp] theorem val_zeros (n : Nat) : val (zeros n) = 0 := by
  induction n with
  | zero => rfl
  | succ n ih =>
    rw [zeros, List.replicate_succ, val_cons]
    simpa [zeros] using ih

@[simp] theorem zeros_length (n : Nat) : (zeros n).length = n := by simp [zeros]

@[simp] theorem bitsOf_length (w x : Nat) : (bitsOf w x).length = w := by simp [bitsOf]

/-- One bit more on the left of `bitsOf`. -/
theorem bitsOf_succ (w x : Nat) : bitsOf (w + 1) x = x.testBit w :: bitsOf w x := by
  simp only [bitsOf, List.range_succ_eq_map, List.map_cons, List.map_map]
  simp only [Nat.add_sub_cancel, Nat.sub_zero]
  congr 1
  apply List.map_congr_left
  intro i hi
  simp only [Function.comp_apply]
  congr 1
  omega

/-- `val(bitsN(x))` is x reduced to N bits. -/
theorem val_bitsOf (w x : Nat) : val (bitsOf w x) = x % 2 ^ w := by
  induction w with
  | zero => simp [bitsOf, Nat.mod_one]
  | succ w ih =>
    rw [bitsOf_succ, val_cons, ih, bitsOf_length, Nat.mod_pow_succ, Nat.toNat_testBit]
    ring

/-- A vector is determined by its length and its value. -/
theorem eq_of_val_eq {u v : Bits} (hl : u.length = v.length) (hv : val u = val v) : u = v := by
  induction u generalizing v with
  | nil => cases v <;> simp_all
  | cons a u ih =>
    cases v with
    | nil => simp at hl
    | cons b v =>
      simp only [List.length_cons, Nat.add_right_cancel_iff] at hl
      rw [val_cons, val_cons, hl] at hv
      have hu := val_lt u
      have hw := val_lt v
      rw [hl] at hu
      have hab : a = b := by
        cases a <;> cases b <;> simp at hv ⊢ <;> omega
      subst hab
      rw [ih hl (by omega)]

/-- `bitsN(val(v)) = v` for a vector of length N. -/
theorem bitsOf_val (v : Bits) : bitsOf v.length (val v) = v :=
  eq_of_val_eq (by simp) (by rw [val_bitsOf, Nat.mod_eq_of_lt (val_lt v)])

theorem val_drop (v : Bits) (n : Nat) : val (v.drop n) = val v % 2 ^ (v.length - n) := by
  conv_rhs => rw [← List.take_append_drop n v, val_append]
  rw [List.length_append, List.length_drop, List.length_take]
  have h := val_lt (v.drop n)
  rw [List.length_drop] at h
  have : min n v.length + (v.length - n) - n = v.length - n := by omega
  rw [this, Nat.mul_add_mod_self_right, Nat.mod_eq_of_lt h]

/-- Zero padding on the left keeps the value (40_bitvector.md R63). -/
theorem val_zeros_append (n : Nat) (v : Bits) : val (zeros n ++ v) = val v := by
  rw [val_append, val_zeros]; simp

end Sys2Proof.Machine
end

