-- ==== Sys2Proof/Laws/Memory.lean ====
section
/-! SUPPORT. The dictionary memory: read after write, the canonical form, lookup by word, and what the
load leaves (20_memory.md R30, R31; 44_dictionary_system.md R101). -/

namespace Sys2Proof.Machine

/-! ### Read after write -/

theorem Memory.read_write (m : Memory) (i j : Nat) (w : Word) :
    Memory.read (Memory.write m i w) j = if j = i then some w else Memory.read m j := by
  induction m with
  | nil => rfl
  | cons c rest ih =>
    obtain ⟨k, x⟩ := c
    by_cases h1 : i < k
    · simp [Memory.write, Memory.read, h1]
    · by_cases h2 : i = k
      · subst h2
        simp only [Memory.write, Memory.read, lt_irrefl, if_false, if_true]
        split <;> simp_all
      · simp only [Memory.write, Memory.read, h1, h2, if_false, ih]
        by_cases h3 : j = k
        · simp [h3, Ne.symm h2]
        · simp [h3]

@[simp] theorem Memory.read_write_same (m : Memory) (i : Nat) (w : Word) :
    Memory.read (Memory.write m i w) i = some w := by simp [Memory.read_write]

theorem Memory.read_write_other (m : Memory) {i j : Nat} (w : Word) (h : j ≠ i) :
    Memory.read (Memory.write m i w) j = Memory.read m j := by simp [Memory.read_write, h]

/-- The loop of DICT.LOAD writes word k of the list at index `i + k` and nothing else. -/
theorem Memory.read_writeAll (m : Memory) (i : Nat) (ws : List Word) (j : Nat) :
    Memory.read (Memory.writeAll m i ws) j =
      if i ≤ j ∧ j < i + ws.length then ws[j - i]? else Memory.read m j := by
  induction ws generalizing i with
  | nil => simp [Memory.writeAll]
  | cons w rest ih =>
    simp only [Memory.writeAll, Memory.read_write, ih, List.length_cons]
    by_cases h : j = i
    · simp [h]
    · simp only [h, if_false]
      by_cases h2 : i + 1 ≤ j ∧ j < i + 1 + rest.length
      · rw [if_pos h2, if_pos (by omega)]
        obtain ⟨k, rfl⟩ : ∃ k, j = i + 1 + k := ⟨j - (i + 1), by omega⟩
        rw [show i + 1 + k - (i + 1) = k by omega, show i + 1 + k - i = k + 1 by omega]
        simp
      · rw [if_neg h2, if_neg (by omega)]

/-! ### The canonical form -/

/-- A write adds no entry but its own. -/
theorem Memory.mem_write {m : Memory} {i : Nat} {w : Word} {c : Nat × Word}
    (h : c ∈ Memory.write m i w) : c = (i, w) ∨ c ∈ m := by
  induction m with
  | nil => simpa [Memory.write] using h
  | cons d rest ih =>
    obtain ⟨k, x⟩ := d
    simp only [Memory.write] at h
    split at h
    · exact List.mem_cons.mp h
    · split at h
      · rcases List.mem_cons.mp h with h | h
        · exact .inl h
        · exact .inr (List.mem_cons_of_mem _ h)
      · rcases List.mem_cons.mp h with h | h
        · exact .inr (h ▸ List.mem_cons_self)
        · exact (ih h).imp_right (List.mem_cons_of_mem _)

theorem Memory.write_sorted (m : Memory) (i : Nat) (w : Word)
    (h : (m.map Prod.fst).Pairwise (· < ·)) :
    ((Memory.write m i w).map Prod.fst).Pairwise (· < ·) := by
  rw [List.pairwise_map] at h ⊢
  induction m with
  | nil => simp [Memory.write]
  | cons c rest ih =>
    obtain ⟨k, x⟩ := c
    rw [List.pairwise_cons] at h
    obtain ⟨h1, h2⟩ := h
    simp only [Memory.write]
    split
    · rename_i hlt
      refine List.pairwise_cons.mpr ⟨?_, List.pairwise_cons.mpr ⟨h1, h2⟩⟩
      intro a ha
      rcases List.mem_cons.mp ha with rfl | ha
      · exact hlt
      · exact lt_trans hlt (h1 a ha)
    · split
      · rename_i _ heq
        subst heq
        exact List.pairwise_cons.mpr ⟨h1, h2⟩
      · rename_i hlt heq
        refine List.pairwise_cons.mpr ⟨?_, ih h2⟩
        intro a ha
        rcases Memory.mem_write ha with rfl | ha
        · show k < i
          omega
        · exact h1 a ha

theorem Memory.write_bounded (m : Memory) (i : Nat) (w : Word) (hi : i < 2048)
    (h : ∀ c ∈ m, c.1 < 2048) : ∀ c ∈ Memory.write m i w, c.1 < 2048 := by
  intro c hc
  rcases Memory.mem_write hc with rfl | hc
  · exact hi
  · exact h c hc

theorem Memory.wf_iff (m : Memory) :
    Memory.wf m = true ↔ (m.map Prod.fst).Pairwise (· < ·) ∧ ∀ c ∈ m, c.1 < 2048 := by
  simp [Memory.wf]

/-- A write inside the address space keeps the canonical form. -/
theorem Memory.wf_write (m : Memory) (i : Nat) (w : Word) (hi : i < 2048)
    (h : Memory.wf m = true) : Memory.wf (Memory.write m i w) = true := by
  rw [Memory.wf_iff] at h ⊢
  exact ⟨Memory.write_sorted m i w h.1, Memory.write_bounded m i w hi h.2⟩

/-- The loop of DICT.LOAD keeps the canonical form. -/
theorem Memory.wf_writeAll (m : Memory) (i : Nat) (ws : List Word) (hi : i + ws.length ≤ 2048)
    (h : Memory.wf m = true) : Memory.wf (Memory.writeAll m i ws) = true := by
  induction ws generalizing i with
  | nil => exact h
  | cons w rest ih =>
    simp only [List.length_cons] at hi
    exact Memory.wf_write _ _ _ (by omega) (ih (i + 1) (by omega))

theorem reset_memory_wf : Memory.wf State.reset.dict = true := rfl

/-! ### The load of an empty memory -/

/-- Loading into an empty memory lists the words at consecutive indexes. -/
theorem Memory.writeAll_nil (i : Nat) (ws : List Word) :
    (Memory.writeAll [] i ws) = (List.range' i ws.length).zip ws := by
  induction ws generalizing i with
  | nil => rfl
  | cons w rest ih =>
    simp only [Memory.writeAll, ih, List.length_cons, List.range'_succ, List.zip_cons_cons]
    cases rest with
    | nil => rfl
    | cons w' rest' => simp [Memory.write, List.range'_succ]

/-- A checked list loaded into an empty memory is a complete dictionary. -/
theorem Memory.writeAll_holdsDictionary (ws : List Word) (hl : ws.length = 2048) (hn : ws.Nodup) :
    Memory.HoldsDictionary (Memory.writeAll [] 0 ws) := by
  have h : (List.range' 0 ws.length).length = ws.length := List.length_range'
  constructor
  · rw [Memory.writeAll_nil, List.map_fst_zip h.le, hl, List.range_eq_range']
  · rw [Memory.writeAll_nil, List.map_snd_zip h.ge]
    exact hn

/-! ### Lookup by word -/

theorem Memory.find_eq_some_mem {m : Memory} {w : Word} {i : Nat} (h : Memory.find m w = some i) :
    (i, w) ∈ m := by
  induction m with
  | nil => simp [Memory.find] at h
  | cons c rest ih =>
    obtain ⟨k, x⟩ := c
    simp only [Memory.find] at h
    split at h
    · simp_all
    · exact List.mem_cons_of_mem _ (ih h)

theorem Memory.find_of_mem {m : Memory} {w : Word} {i : Nat} (hd : (m.map Prod.snd).Nodup)
    (h : (i, w) ∈ m) : Memory.find m w = some i := by
  induction m with
  | nil => simp at h
  | cons c rest ih =>
    obtain ⟨k, x⟩ := c
    simp only [List.map_cons, List.nodup_cons] at hd
    rcases List.mem_cons.mp h with heq | hmem
    · cases heq; simp [Memory.find]
    · have hne : x ≠ w := by
        rintro rfl
        exact hd.1 (List.mem_map.mpr ⟨(i, x), hmem, rfl⟩)
      simp [Memory.find, hne, ih hd.2 hmem]

theorem Memory.find_eq_none_iff {m : Memory} {w : Word} :
    Memory.find m w = none ↔ ∀ i, (i, w) ∉ m := by
  induction m with
  | nil => simp [Memory.find]
  | cons c rest ih =>
    obtain ⟨k, x⟩ := c
    by_cases hx : x = w
    · subst hx
      simp only [Memory.find, if_true, reduceCtorEq, false_iff, not_forall, not_not]
      exact ⟨k, by simp⟩
    · simp [Memory.find, hx, ih, Ne.symm hx]

theorem Memory.read_eq_some_mem {m : Memory} {i : Nat} {w : Word} (h : Memory.read m i = some w) :
    (i, w) ∈ m := by
  induction m with
  | nil => simp [Memory.read] at h
  | cons c rest ih =>
    obtain ⟨k, x⟩ := c
    simp only [Memory.read] at h
    split at h
    · simp_all
    · exact List.mem_cons_of_mem _ (ih h)

theorem Memory.read_of_mem {m : Memory} {i : Nat} {w : Word} (hk : (m.map Prod.fst).Nodup)
    (h : (i, w) ∈ m) : Memory.read m i = some w := by
  induction m with
  | nil => simp at h
  | cons c rest ih =>
    obtain ⟨k, x⟩ := c
    simp only [List.map_cons, List.nodup_cons] at hk
    rcases List.mem_cons.mp h with heq | hmem
    · cases heq; simp [Memory.read]
    · have hne : i ≠ k := by
        rintro rfl
        exact hk.1 (List.mem_map.mpr ⟨(i, w), hmem, rfl⟩)
      simp [Memory.read, hne, ih hk.2 hmem]

/-! ### A complete dictionary -/

theorem Memory.HoldsDictionary.keys_nodup {m : Memory} (h : m.HoldsDictionary) :
    (m.map Prod.fst).Nodup := by
  rw [h.complete]; exact List.nodup_range

/-- No index stands twice in a memory in canonical form. -/
theorem Memory.keys_nodup_of_wf {m : Memory} (h : Memory.wf m = true) : (m.map Prod.fst).Nodup := by
  simp only [Memory.wf, Bool.and_eq_true, decide_eq_true_eq] at h
  exact h.1.imp Nat.ne_of_lt

/-- A complete dictionary is in canonical form. -/
theorem Memory.HoldsDictionary.wf {m : Memory} (h : m.HoldsDictionary) : Memory.wf m = true := by
  simp only [Memory.wf, Bool.and_eq_true, decide_eq_true_eq, List.all_eq_true]
  refine ⟨by rw [h.complete]; exact List.pairwise_lt_range, fun c hc => ?_⟩
  have : c.1 ∈ m.map Prod.fst := List.mem_map.mpr ⟨c, hc, rfl⟩
  rw [h.complete] at this
  simpa using this

/-- In a complete dictionary every index below 2048 holds a word. -/
theorem Memory.HoldsDictionary.read_some {m : Memory} (h : m.HoldsDictionary) {i : Nat}
    (hi : i < 2048) : ∃ w, Memory.read m i = some w := by
  have : i ∈ m.map Prod.fst := by rw [h.complete]; simpa using hi
  obtain ⟨⟨k, w⟩, hm, rfl⟩ := List.mem_map.mp this
  exact ⟨w, Memory.read_of_mem h.keys_nodup hm⟩

/-- In a complete dictionary the two lookups are inverse (20_memory.md R31). -/
theorem Memory.HoldsDictionary.find_iff_read {m : Memory} (h : m.HoldsDictionary) {i : Nat} {w : Word} :
    Memory.find m w = some i ↔ Memory.read m i = some w :=
  ⟨fun hf => Memory.read_of_mem h.keys_nodup (Memory.find_eq_some_mem hf),
   fun hr => Memory.find_of_mem h.distinct (Memory.read_eq_some_mem hr)⟩

theorem Memory.HoldsDictionary.find_lt {m : Memory} (h : m.HoldsDictionary) {i : Nat} {w : Word}
    (hf : Memory.find m w = some i) : i < 2048 := by
  have : i ∈ m.map Prod.fst := List.mem_map.mpr ⟨(i, w), Memory.find_eq_some_mem hf, rfl⟩
  rw [h.complete] at this
  simpa using this

/-- A forward read in a complete dictionary answers the word, or faults on an index of 2048 or more;
it never stops (20_memory.md R30). -/
theorem Memory.HoldsDictionary.readEntry_cases {m : Memory} (h : m.HoldsDictionary) (i : Nat) :
    (i < 2048 ∧ ∃ w, Memory.read m i = some w ∧ readEntry m i = .ok w) ∨
    (2048 ≤ i ∧ readEntry m i = .violation .indexOutOfRange) := by
  by_cases hi : 2048 ≤ i
  · exact .inr ⟨hi, by simp [readEntry, hi]⟩
  · obtain ⟨w, hw⟩ := h.read_some (show i < 2048 by omega)
    exact .inl ⟨by omega, w, hw, by simp [readEntry, hi, hw]⟩

theorem readEntry_of_read {m : Memory} {i : Nat} {w : Word} (hi : i < 2048)
    (h : Memory.read m i = some w) : readEntry m i = .ok w := by
  simp [readEntry, show ¬ 2048 ≤ i by omega, h]

end Sys2Proof.Machine
end

