-- ==== Sys2Proof/Laws/ByteBit.lean ====
section
/-! SUPPORT. Bytes as bits (41_bytebit.md R70 to R72, 20_memory.md R32). -/

namespace Sys2Proof.Machine

@[simp] theorem byteToBits_length (x : Byte) : (byteToBits x).length = 8 := by simp [byteToBits]

/-- A byte's bits have the byte's value (41_bytebit.md R72). -/
@[simp] theorem val_byteToBits (x : Byte) : val (byteToBits x) = x.toNat := by
  rw [byteToBits, val_bitsOf]; exact Nat.mod_eq_of_lt x.isLt

/-- Bit i of a byte's bits is bit 7 - i of the byte (20_memory.md R32). -/
theorem byteToBits_getElem? (x : Byte) (i : Nat) (h : i < 8) :
    (byteToBits x)[i]? = some (x.getLsbD (7 - i)) := by
  simp [byteToBits, bitsOf, h, BitVec.getLsbD]

@[simp] theorem bytesToBits_nil : bytesToBits [] = [] := rfl
@[simp] theorem bytesToBits_cons (x : Byte) (d : ByteSeq) :
    bytesToBits (x :: d) = byteToBits x ++ bytesToBits d := rfl
theorem bytesToBits_append (d e : ByteSeq) : bytesToBits (d ++ e) = bytesToBits d ++ bytesToBits e := by
  simp [bytesToBits]

@[simp] theorem bytesToBits_length (d : ByteSeq) : (bytesToBits d).length = 8 * d.length := by
  induction d with
  | nil => rfl
  | cons x d ih => simp [ih]; omega

@[simp] theorem octets_length (k : Nat) (v : Bits) : (octets k v).length = k := by
  induction k generalizing v with
  | zero => rfl
  | succ k ih => simp [octets, ih]

/-- Byte j of the octets is the value of bits 8j .. 8j+7 (41_bytebit.md R71). -/
theorem octets_getElem? (k : Nat) (v : Bits) (j : Nat) (h : j < k) :
    (octets k v)[j]? = some (BitVec.ofNat 8 (val ((v.drop (8 * j)).take 8))) := by
  induction k generalizing v j with
  | zero => omega
  | succ k ih =>
    cases j with
    | zero => simp [octets]
    | succ j =>
      rw [octets, List.getElem?_cons_succ, ih _ _ (by omega), List.drop_drop]
      congr 5
      omega

/-- The octets of a byte sequence's bits are the bytes. -/
theorem octets_bytesToBits (d : ByteSeq) : octets d.length (bytesToBits d) = d := by
  induction d with
  | nil => rfl
  | cons x d ih =>
    have ht : (byteToBits x ++ bytesToBits d).take 8 = byteToBits x := by
      rw [List.take_append_of_le_length (by simp)]; exact List.take_of_length_le (by simp)
    have hd : (byteToBits x ++ bytesToBits d).drop 8 = bytesToBits d := by
      rw [List.drop_append_of_le_length (by simp)]; simp
    simp only [List.length_cons, octets, bytesToBits_cons, ht, hd, ih, val_byteToBits]
    simp

/-- The bits of the octets of a vector of whole bytes are the vector. -/
theorem bytesToBits_octets (k : Nat) (v : Bits) (h : v.length = 8 * k) :
    bytesToBits (octets k v) = v := by
  induction k generalizing v with
  | zero => simp_all [octets]
  | succ k ih =>
    have h8 : (v.take 8).length = 8 := by rw [List.length_take]; omega
    rw [octets, bytesToBits_cons, ih (v.drop 8) (by rw [List.length_drop]; omega)]
    have hb : byteToBits (BitVec.ofNat 8 (val (v.take 8))) = v.take 8 := by
      apply eq_of_val_eq
      · simp [h8]
      · have := val_lt (v.take 8)
        rw [h8] at this
        rw [val_byteToBits, BitVec.toNat_ofNat, Nat.mod_eq_of_lt this]
    rw [hb, List.take_append_drop]

/-- BITS2B either gives all its bytes or faults; it never pads (41_bytebit.md R71). -/
theorem bitsToBytes_cases (v : Bits) :
    (v.length % 8 = 0 ∧ bitsToBytes v = .ok (octets (v.length / 8) v)) ∨
    (v.length % 8 ≠ 0 ∧ bitsToBytes v = .violation .notByteMultiple) := by
  by_cases h : v.length % 8 = 0 <;> simp [bitsToBytes, h]

theorem bitsToBytes_bytesToBits (d : ByteSeq) : bitsToBytes (bytesToBits d) = .ok d := by
  simp [bitsToBytes, octets_bytesToBits]

/-- B2BITS inverts a BITS2B that gives bytes. -/
theorem bytesToBits_of_bitsToBytes {v : Bits} {d : ByteSeq} (h : bitsToBytes v = .ok d) :
    bytesToBits d = v := by
  rcases bitsToBytes_cases v with ⟨h8, hv⟩ | ⟨_, hv⟩
  · rw [hv] at h
    cases h
    exact bytesToBits_octets _ _ (by omega)
  · rw [hv] at h; cases h

/-! ### The pops (40_bitvector.md R61, R62) -/

theorem popFront_cases (v : Bits) (n : Nat) :
    (n ≤ v.length ∧ popFront v n = .ok (v.take n, v.drop n)) ∨
    (v.length < n ∧ popFront v n = .violation .indexOutOfRange) := by
  by_cases h : v.length < n
  · simp [popFront, h]
  · simp [popFront, h]; omega

theorem popBack_cases (v : Bits) (n : Nat) :
    (n ≤ v.length ∧ popBack v n = .ok (v.take (v.length - n), v.drop (v.length - n))) ∨
    (v.length < n ∧ popBack v n = .violation .indexOutOfRange) := by
  by_cases h : v.length < n
  · simp [popBack, h]
  · simp [popBack, h]; omega

theorem popFront_append (u v : Bits) : popFront (u ++ v) u.length = .ok (u, v) := by
  simp [popFront]

theorem popBack_append (u v : Bits) : popBack (u ++ v) v.length = .ok (u, v) := by
  simp [popBack]

/-- PADL gives a vector of the longer length and the same value, or overflows (40_bitvector.md R63). -/
theorem padLeft_cases (v : Bits) (t : Nat) :
    (∃ r, padLeft Config.env v t = .ok r ∧ r = zeros (t - v.length) ++ v) ∨
    (v.length < t ∧ Caps.holds Config.env.caps.bv t = false ∧ padLeft Config.env v t = .violation .capacityOverflow) := by
  unfold padLeft
  split
  · rename_i h
    have hl : (zeros (t - v.length) ++ v).length = t := by simp; omega
    rcases fitBits_cases (zeros (t - v.length) ++ v) with ⟨_, h2⟩ | ⟨h1, h2⟩
    · exact .inl ⟨_, h2, rfl⟩
    · exact .inr ⟨h, hl ▸ h1, h2⟩
  · rename_i h
    exact .inl ⟨v, rfl, by simp [zeros, show t - v.length = 0 by omega]⟩

/-! ### The slicer (43_mnemonic.md R87 to R89) -/

/-- C2I under the machine's parameters: the chunk's value, or ChunkTooWide. -/
theorem chunkToIndex_cases (c : Bits) :
    (c.length ≤ 16 ∧ chunkToIndex Config.env c = .ok (val c)) ∨
    (16 < c.length ∧ chunkToIndex Config.env c = .violation .chunkTooWide) := by
  by_cases h : 16 < c.length
  · exact .inr ⟨h, by simp [chunkToIndex, h]⟩
  · refine .inl ⟨by omega, ?_⟩
    rcases padLeft_cases c 16 with ⟨r, hr, rfl⟩ | ⟨_, h2, _⟩
    · simp [chunkToIndex, h, hr, val_zeros_append]
    · rw [Config.env, holds_bv_of_le _ _ (by omega)] at h2
      cases h2

@[simp] theorem indexToChunk_length (x : Nat) : (indexToChunk x).length = 11 := by simp [indexToChunk]

@[simp] theorem val_indexToChunk (x : Nat) : val (indexToChunk x) = x % 2048 := by
  rw [indexToChunk, val_drop, val_bitsOf, bitsOf_length]
  exact Nat.mod_mod_of_dvd x (by decide : 2 ^ (16 - 5) ∣ 2 ^ 16)

theorem indexToChunk_val (c : Bits) (h : c.length = 11) : indexToChunk (val c) = c := by
  apply eq_of_val_eq (by simp [h])
  rw [val_indexToChunk]
  have := val_lt c
  rw [h] at this
  exact Nat.mod_eq_of_lt this

end Sys2Proof.Machine
end

