-- ==== Sys2Proof/Laws/Checksum.lean ====
section
/-! SUPPORT. The checksum engine (42_checksum.md R75 to R78). -/

namespace Sys2Proof.Machine

@[simp] theorem lastBits_length (x : Byte) (k : Nat) : (lastBits x k).length = min k 8 := by
  unfold lastBits
  split <;> simp <;> omega

/-- The checksum is the LOW end of the first byte: its value modulo 2^k (42_checksum.md R75). -/
theorem val_lastBits (x : Byte) (k : Nat) : val (lastBits x k) = x.toNat % 2 ^ min k 8 := by
  unfold lastBits
  split
  · rename_i h
    rw [val_drop, val_byteToBits, byteToBits_length]
    congr 2
    omega
  · rename_i h
    rw [val_byteToBits, show min k 8 = 8 by omega]
    exact (Nat.mod_eq_of_lt x.isLt).symm

/-- EXTRACT answers on exactly the sequences of 32 bytes. -/
theorem extract_cases (g : ByteSeq) (k : Nat) :
    (g.length = 32 ∧ ∃ x, g[0]? = some x ∧ extract g k = .ok (lastBits x k)) ∨
    (g.length ≠ 32 ∧ extract g k = .violation .badDigestLength) := by
  cases g with
  | nil => simp [extract]
  | cons x rest =>
    by_cases h : (x :: rest).length = 32
    · exact .inl ⟨h, x, rfl, by simp only [extract, h, if_true]⟩
    · exact .inr ⟨h, by simp only [extract, h, if_false]⟩

/-- EXTRACT of a digest never faults. -/
theorem extract_digest (g : Digest) (k : Nat) : extract g.toList k = .ok (lastBits g[0] k) := by
  rcases extract_cases g.toList k with ⟨_, x, hx, h⟩ | ⟨h, _⟩
  · have : g.toList[0]? = some g[0] := by simp
    rw [this] at hx
    cases hx
    exact h
  · simp at h

/-- What the composites ask of a digest is EXTRACT of its 32 bytes (42_checksum.md R76, R78). -/
theorem extractDigest_eq (g : Digest) (k : Nat) : extractDigest g k = extract g.toList k :=
  (extract_digest g k).symm

/-- The checksum bits of a byte sequence under given parameters. -/
theorem compute_eq (env : Env) (e : ByteSeq) :
    compute env e = .ok (lastBits (env.digest e)[0] ((8 * e.length) / 32)) := rfl

theorem sign_eq (env : Env) (e : ByteSeq) :
    sign env e = fitBits env (bytesToBits e ++ lastBits (env.digest e)[0] ((8 * e.length) / 32)) := by
  simp [sign, compute_eq]

/-- VALIDATE in the order of its tests (60_exceptions.md R111). -/
theorem validate_cases (env : Env) (v : Bits) :
    (8 < v.length / 32 ∧ validate env v = .violation .checksumWidth) ∨
    (v.length / 32 ≤ 8 ∧ (v.length - v.length / 32) % 8 ≠ 0 ∧
      validate env v = .violation .notByteMultiple) ∨
    (v.length / 32 ≤ 8 ∧ (v.length - v.length / 32) % 8 = 0 ∧
      ∃ d, bytesToBits d = v.take (v.length - v.length / 32) ∧
        validate env v =
          require (decide (lastBits (env.digest d)[0] (v.length / 32) = v.drop (v.length - v.length / 32)))
            .invalidChecksum) := by
  by_cases h : 8 < v.length / 32
  · exact .inl ⟨h, by simp [validate, h]⟩
  · have hp : popBack v (v.length / 32) =
        .ok (v.take (v.length - v.length / 32), v.drop (v.length - v.length / 32)) := by
      rcases popBack_cases v (v.length / 32) with ⟨_, h2⟩ | ⟨h2, _⟩
      · exact h2
      · omega
    have hl : (v.take (v.length - v.length / 32)).length = v.length - v.length / 32 := by
      rw [List.length_take]; omega
    rcases bitsToBytes_cases (v.take (v.length - v.length / 32)) with ⟨h8, hb⟩ | ⟨h8, hb⟩
    · refine .inr (.inr ⟨by omega, hl ▸ h8, _, bytesToBits_of_bitsToBytes hb, ?_⟩)
      simp only [validate, h, hp, hb, extractDigest, decide_false, checkNot_false, Txn.bind_ok]
    · refine .inr (.inl ⟨by omega, hl ▸ h8, ?_⟩)
      simp only [validate, h, hp, hb, decide_false, checkNot_false, Txn.bind_ok, Txn.bind_violation]

/-! ### The validators (43_mnemonic.md R85, R86) -/

/-- Exactly the byte lengths 16, 20, 24, 28, 32. -/
theorem checkLength_eq (e : ByteSeq) :
    checkLength e = require (decide (e.length ∈ [16, 20, 24, 28, 32])) .invalidEntropyLength := by
  unfold checkLength
  congr 1
  rw [Bool.eq_iff_iff]
  simp only [Bool.and_eq_true, decide_eq_true_eq, List.mem_cons, List.not_mem_nil, or_false]
  omega

/-- Exactly the word counts 12, 15, 18, 21, 24. -/
theorem checkWordCount_eq (ws : Sentence) :
    checkWordCount ws = require (decide (ws.length ∈ [12, 15, 18, 21, 24])) .invalidMnemonicWordCount := by
  unfold checkWordCount splitFormula
  congr 1
  rw [Bool.eq_iff_iff]
  simp only [Bool.and_eq_true, decide_eq_true_eq, List.mem_cons, List.not_mem_nil, or_false]
  omega

end Sys2Proof.Machine
end

