-- ==== Sys2Proof/Laws/Sequencer.lean ====
section
/-! SUPPORT. The walk of the sequencer (10_state.md R14; 43_mnemonic.md R91, R92): what a micro-step
leaves alone, and the two walks in closed form. -/

namespace Sys2Proof.Machine

/-- What no micro-step touches: the operand ports, STATUS, the dictionary, ST and the counter. -/
structure Keeps (s u : State) : Prop where
  ops    : u.ops = s.ops
  status : u.status = s.status
  dict   : u.dict = s.dict
  txn    : u.txn = s.txn

theorem Keeps.refl (s : State) : Keeps s s := ⟨rfl, rfl, rfl, rfl⟩

theorem Keeps.trans {s t u : State} (h : Keeps s t) (k : Keeps t u) : Keeps s u :=
  ⟨k.ops.trans h.ops, k.status.trans h.status, k.dict.trans h.dict, k.txn.trans h.txn⟩

/-- The end of a transaction depends on no more than what `Keeps` names, and the results. -/
theorem takeOk_eq_of_keeps {s u : State} (h : Keeps s u) : takeOk u = takeOk (s.writeResults u.res) := by
  obtain ⟨o, st, r, stat, d, p, sc, t⟩ := u
  obtain ⟨rfl, rfl, rfl, rfl⟩ := h
  rfl

theorem sequencerStep_keeps {env : Env} {s u : State} (h : sequencerStep env s = .ok u) : Keeps s u := by
  unfold sequencerStep at h
  split at h
  case h_1 => cases h; exact Keeps.refl s
  case h_2 =>
    obtain ⟨_, _, h⟩ := Txn.bind_eq_ok.mp h
    cases h; exact ⟨rfl, rfl, rfl, rfl⟩
  case h_3 => cases h; exact ⟨rfl, rfl, rfl, rfl⟩
  case h_4 =>
    obtain ⟨_, _, h⟩ := Txn.bind_eq_ok.mp h
    cases h; exact ⟨rfl, rfl, rfl, rfl⟩
  case h_5 =>
    obtain ⟨_, _, h⟩ := Txn.bind_eq_ok.mp h
    cases h; exact ⟨rfl, rfl, rfl, rfl⟩
  case h_6 =>
    unfold phaseE5 at h
    split at h
    · obtain ⟨_, _, h⟩ := Txn.bind_eq_ok.mp h
      obtain ⟨_, _, h⟩ := Txn.bind_eq_ok.mp h
      obtain ⟨_, _, h⟩ := Txn.bind_eq_ok.mp h
      cases h; exact ⟨rfl, rfl, rfl, rfl⟩
    · cases h; exact ⟨rfl, rfl, rfl, rfl⟩
  case h_7 => cases h; exact ⟨rfl, rfl, rfl, rfl⟩
  case h_8 =>
    obtain ⟨_, _, h⟩ := Txn.bind_eq_ok.mp h
    cases h; exact ⟨rfl, rfl, rfl, rfl⟩
  case h_9 =>
    unfold phaseD2 at h
    split at h
    · obtain ⟨_, _, h⟩ := Txn.bind_eq_ok.mp h
      cases h; exact ⟨rfl, rfl, rfl, rfl⟩
    · cases h; exact ⟨rfl, rfl, rfl, rfl⟩
  case h_10 => cases h; exact ⟨rfl, rfl, rfl, rfl⟩
  case h_11 =>
    unfold phaseD4 at h
    split at h <;> cases h
    exact ⟨rfl, rfl, rfl, rfl⟩
  case h_12 =>
    obtain ⟨_, _, h⟩ := Txn.bind_eq_ok.mp h
    obtain ⟨_, _, h⟩ := Txn.bind_eq_ok.mp h
    cases h; exact ⟨rfl, rfl, rfl, rfl⟩
  case h_13 => cases h; exact ⟨rfl, rfl, rfl, rfl⟩

/-- A walk that ends leaves alone what its micro-steps leave alone. -/
theorem sequencerWalk_keeps {env : Env} {fuel : Nat} {s u : State}
    (h : sequencerWalk env fuel s = .ok u) : Keeps s u := by
  induction fuel generalizing s with
  | zero =>
    unfold sequencerWalk at h
    split at h <;> cases h
    exact Keeps.refl _
  | succ k ih =>
    unfold sequencerWalk at h
    split at h
    · cases h; exact Keeps.refl _
    · obtain ⟨t, ht, hu⟩ := Txn.bind_eq_ok.mp h
      exact (sequencerStep_keeps ht).trans (ih hu)

theorem sequencerWalk_idle {env : Env} {fuel : Nat} {s : State} (h : s.ph = .idle) :
    sequencerWalk env fuel s = .ok s := by
  cases fuel <;> simp [sequencerWalk, h]

theorem sequencerWalk_succ {env : Env} {k : Nat} {s : State} (h : s.ph ≠ .idle) :
    sequencerWalk env (k + 1) s = (sequencerStep env s).bind (sequencerWalk env k) := by
  simp [sequencerWalk, h]

/-! ### MN.ENCODE -/

/-- The words of `k` consecutive 11-bit chunks (43_mnemonic.md R91 step 5). -/
def sliceWords (m : Memory) : Nat → Bits → Txn Sentence
  | 0, _ => .ok []
  | k + 1, v =>
    (readEntry m (val (v.take 11))).bind fun w =>
    (sliceWords m k (v.drop 11)).bind fun ws => .ok (w :: ws)

/-- One turn of the loop of step 5. -/
theorem phaseE5_turn (s : State) (hi : s.scratch.i < s.scratch.wc) (hl : 11 ≤ s.scratch.s.length) :
    phaseE5 Config.env s = (readEntry s.dict (val (s.scratch.s.take 11))).bind fun w =>
      .ok { s with scratch := { s.scratch with
              c := s.scratch.s.take 11, s := s.scratch.s.drop 11,
              outs := s.scratch.outs ++ [w], i := s.scratch.i + 1 } } := by
  have hp : popFront s.scratch.s 11 = .ok (s.scratch.s.take 11, s.scratch.s.drop 11) := by
    rcases popFront_cases s.scratch.s 11 with ⟨_, h⟩ | ⟨h, _⟩
    · exact h
    · omega
  have hc : chunkToIndex Config.env (s.scratch.s.take 11) = .ok (val (s.scratch.s.take 11)) := by
    rcases chunkToIndex_cases (s.scratch.s.take 11) with ⟨_, h⟩ | ⟨h, _⟩
    · exact h
    · rw [List.length_take] at h; omega
  simp only [phaseE5, hi, if_true, hp, hc, Txn.bind_ok]

/-- The rest of the walk of MN.ENCODE from step 5 on. -/
theorem walk_from_e5 (k fuel : Nat) (s : State) (hp : s.ph = .e5)
    (hi : s.scratch.i + k = s.scratch.wc) (hl : s.scratch.s.length = 11 * k) :
    (∃ ws, sliceWords s.dict k s.scratch.s = .ok ws ∧
      ∃ u, sequencerWalk Config.env (k + 2 + fuel) s = .ok u ∧
        u.res = { rse := some (s.scratch.outs ++ ws) }) ∨
    (∃ g, sliceWords s.dict k s.scratch.s = .stuck g ∧
      sequencerWalk Config.env (k + 2 + fuel) s = .stuck g) ∨
    (∃ v, sliceWords s.dict k s.scratch.s = .violation v) := by
  induction k generalizing s with
  | zero =>
    refine .inl ⟨[], rfl, { s.writeResults { rse := some s.scratch.outs } with ph := .idle }, ?_, ?_⟩
    · rw [show 0 + 2 + fuel = (fuel + 1) + 1 by omega, sequencerWalk_succ (by simp [hp])]
      have h1 : sequencerStep Config.env s = .ok { s with ph := .e6 } := by
        simp [sequencerStep, hp, phaseE5, show ¬ s.scratch.i < s.scratch.wc by omega]
      rw [h1, Txn.bind_ok, sequencerWalk_succ (by simp)]
      exact sequencerWalk_idle rfl
    · simp
  | succ k ih =>
    have hst : sequencerStep Config.env s = phaseE5 Config.env s := by simp [sequencerStep, hp]
    rw [show k + 1 + 2 + fuel = (k + 2 + fuel) + 1 by omega, sequencerWalk_succ (by simp [hp]), hst,
      phaseE5_turn s (by omega) (by omega)]
    simp only [sliceWords]
    cases hr : readEntry s.dict (val (s.scratch.s.take 11)) with
    | ok w =>
      simp only [Txn.bind_ok]
      rcases ih { s with scratch := { s.scratch with
              c := s.scratch.s.take 11, s := s.scratch.s.drop 11,
              outs := s.scratch.outs ++ [w], i := s.scratch.i + 1 } } hp
          (by simp only; omega) (by simp only [List.length_drop]; omega) with
        ⟨ws, hw, u, hu, hres⟩ | ⟨g, hg, hu⟩ | ⟨v, hv⟩
      · simp only at hw
        exact .inl ⟨w :: ws, by rw [hw]; rfl, u, hu, by simpa using hres⟩
      · simp only at hg
        exact .inr (.inl ⟨g, by rw [hg]; rfl, hu⟩)
      · simp only at hv
        exact .inr (.inr ⟨v, by rw [hv]; rfl⟩)
    | err e => simp only [readEntry] at hr; split at hr <;> (try split at hr) <;> cases hr
    | violation v => exact .inr (.inr ⟨v, rfl⟩)
    | stuck g => exact .inr (.inl ⟨g, rfl, rfl⟩)

/-- A chunk is below 2048, so slicing never raises a violation. -/
theorem sliceWords_ne_violation (m : Memory) (k : Nat) (v : Bits) (x : Violation) :
    sliceWords m k v ≠ .violation x := by
  induction k generalizing v with
  | zero => simp [sliceWords]
  | succ k ih =>
    intro h
    have hlt : val (v.take 11) < 2048 := by
      have h1 := val_lt (v.take 11)
      have h2 : (v.take 11).length ≤ 11 := by rw [List.length_take]; omega
      calc val (v.take 11) < 2 ^ (v.take 11).length := h1
        _ ≤ 2 ^ 11 := Nat.pow_le_pow_right (by omega) h2
    rcases Txn.bind_eq_violation.mp h with h | ⟨w, _, h⟩
    · rw [readEntry, if_neg (by omega)] at h
      split at h <;> cases h
    · rcases Txn.bind_eq_violation.mp h with h | ⟨ws, _, h⟩
      · exact ih _ h
      · cases h

/-- A complete dictionary has a word for every chunk. -/
theorem sliceWords_ok {m : Memory} (hm : m.HoldsDictionary) (k : Nat) (v : Bits) :
    ∃ ws, sliceWords m k v = .ok ws ∧ ws.length = k := by
  induction k generalizing v with
  | zero => exact ⟨[], rfl, rfl⟩
  | succ k ih =>
    have hlt : val (v.take 11) < 2048 := by
      have h1 := val_lt (v.take 11)
      have h2 : (v.take 11).length ≤ 11 := by rw [List.length_take]; omega
      calc val (v.take 11) < 2 ^ (v.take 11).length := h1
        _ ≤ 2 ^ 11 := Nat.pow_le_pow_right (by omega) h2
    rcases hm.readEntry_cases (val (v.take 11)) with ⟨_, w, _, hw⟩ | ⟨h, _⟩
    · obtain ⟨ws, h1, h2⟩ := ih (v.drop 11)
      exact ⟨w :: ws, by simp [sliceWords, hw, h1], by simp [h2]⟩
    · omega

/-- Word j of a slicing is the entry of bits 11j .. 11j+10 (30_encoding.md R54, R55). -/
theorem sliceWords_getElem? {m : Memory} {k : Nat} {v : Bits} {ws : Sentence}
    (h : sliceWords m k v = .ok ws) (j : Nat) (hj : j < k) :
    ∃ w, ws[j]? = some w ∧ Memory.read m (val ((v.drop (11 * j)).take 11)) = some w := by
  induction k generalizing v ws j with
  | zero => omega
  | succ k ih =>
    obtain ⟨w, hw, h⟩ := Txn.bind_eq_ok.mp h
    obtain ⟨rest, hr, h⟩ := Txn.bind_eq_ok.mp h
    cases h
    cases j with
    | zero =>
      refine ⟨w, rfl, ?_⟩
      unfold readEntry at hw
      split at hw
      · cases hw
      · split at hw
        · cases hw; simpa
        · cases hw
    | succ j =>
      obtain ⟨x, hx, hread⟩ := ih hr j (by omega)
      refine ⟨x, by simpa using hx, ?_⟩
      rw [List.drop_drop] at hread
      rw [show 11 * (j + 1) = 11 + 11 * j by omega]
      exact hread

/-- The signed bits of an entropy under the machine's digest (42_checksum.md R77). -/
def signedBits (e : ByteSeq) : Bits :=
  bytesToBits e ++ lastBits (Config.digest e)[0] ((8 * e.length) / 32)

theorem signedBits_length (e : ByteSeq) :
    (signedBits e).length = 8 * e.length + min ((8 * e.length) / 32) 8 := by
  simp [signedBits]

/-- The whole walk of MN.ENCODE on an entropy of valid length. -/
theorem encode_walk (s : State) (h : s.ops.by_.length ∈ [16, 20, 24, 28, 32]) :
    (∃ ws, sliceWords s.dict (3 * (s.ops.by_.length / 4)) (signedBits s.ops.by_) = .ok ws ∧
      ∃ u, sequencerWalk Config.env walkBound { s with ph := .e1 } = .ok u ∧ u.res = { rse := some ws }) ∨
    (∃ g, sliceWords s.dict (3 * (s.ops.by_.length / 4)) (signedBits s.ops.by_) = .stuck g ∧
      sequencerWalk Config.env walkBound { s with ph := .e1 } = .stuck g) := by
  have hlen := signedBits_length s.ops.by_
  have hsign : sign Config.env s.ops.by_ = .ok (signedBits s.ops.by_) := by
    rw [sign_eq]
    refine fitBits_env_of_le ?_
    change (signedBits s.ops.by_).length ≤ 264
    simp only [List.mem_cons, List.not_mem_nil, or_false] at h
    omega
  generalize hn : s.ops.by_.length = n at *
  have hwc : (8 * n + 8 * n / 32) / 11 = 3 * (n / 4) := by
    simp only [List.mem_cons, List.not_mem_nil, or_false] at h; omega
  have h11 : (signedBits s.ops.by_).length = 11 * (3 * (n / 4)) := by
    simp only [List.mem_cons, List.not_mem_nil, or_false] at h; omega
  have hfuel : ∃ f, walkBound = (3 * (n / 4) + 2 + f) + 1 + 1 + 1 + 1 := by
    simp only [List.mem_cons, List.not_mem_nil, or_false] at h
    exact ⟨24 - 3 * (n / 4), by unfold walkBound; omega⟩
  obtain ⟨f, hf⟩ := hfuel
  have hchk : checkLength s.ops.by_ = .ok () := by
    rw [checkLength_eq, hn, decide_eq_true h]; rfl
  rw [hf, sequencerWalk_succ (by simp)]
  simp only [sequencerStep, phaseE1, portBy_eq, hchk, Txn.bind_ok]
  rw [sequencerWalk_succ (by simp)]
  simp only [sequencerStep, phaseE2, portBy_eq, hn, Txn.bind_ok]
  rw [sequencerWalk_succ (by simp)]
  simp only [sequencerStep, phaseE3, portBy_eq, hsign, Txn.bind_ok]
  rw [sequencerWalk_succ (by simp)]
  simp only [sequencerStep, phaseE4, h11, Nat.mul_mod_right, decide_true, require_true, Txn.bind_ok, hwc]
  rcases walk_from_e5 (3 * (n / 4)) f
    { s with ph := .e5, scratch := { s.scratch with
        k := 8 * n / 32, wc := 3 * (n / 4), s := signedBits s.ops.by_, outs := [], i := 0 } }
    rfl (by simp) h11 with ⟨ws, hw, u, hu, hres⟩ | ⟨g, hg, hu⟩ | ⟨v, hv⟩
  · exact .inl ⟨ws, hw, u, hu, by simpa using hres⟩
  · exact .inr ⟨g, hg, hu⟩
  · exact absurd hv (sliceWords_ne_violation _ _ _ _)

/-- The walk of MN.ENCODE on an entropy of any other length. -/
theorem encode_walk_invalid (env : Env) (s : State) (h : s.ops.by_.length ∉ [16, 20, 24, 28, 32]) :
    sequencerWalk env walkBound { s with ph := .e1 } = .err .invalidEntropyLength := by
  have hchk : checkLength s.ops.by_ = .err .invalidEntropyLength := by
    rw [checkLength_eq, decide_eq_false h]; rfl
  rw [show walkBound = 29 + 1 from rfl, sequencerWalk_succ (by simp)]
  simp only [sequencerStep, phaseE1, portBy_eq, hchk, Txn.bind_err]

/-! ### MN.DECODE -/

/-- The chunks of the words of a sentence, joined (43_mnemonic.md R92 steps 2 and 3). -/
def joinChunks (m : Memory) : Sentence → Txn Bits
  | [] => .ok []
  | w :: rest =>
    (findEntry m w).bind fun idx =>
    (joinChunks m rest).bind fun v => .ok (indexToChunk idx ++ v)

/-- The loop of step 2: it joins the chunks of the words from word I on, or ends at the first word
that is absent. -/
theorem walk_from_d2 (env : Env) (rest : Sentence) (fuel : Nat) (s : State) (hp : s.ph = .d2)
    (hd : s.ops.se.drop s.scratch.i = rest) :
    (∃ v, joinChunks s.dict rest = .ok v ∧
      ∃ u, Keeps s u ∧ u.ph = .d3 ∧ u.scratch.s = s.scratch.s ++ v ∧
        sequencerWalk env (rest.length + 1 + fuel) s = sequencerWalk env fuel u) ∨
    (joinChunks s.dict rest = .err .invalidWord ∧
      sequencerWalk env (rest.length + 1 + fuel) s = .err .invalidWord) := by
  induction rest generalizing s with
  | nil =>
    have hnone : s.ops.se[s.scratch.i]? = none := by
      rw [List.getElem?_eq_none_iff]
      exact List.drop_eq_nil_iff.mp hd
    refine .inl ⟨[], rfl, { s with ph := .d3 }, ⟨rfl, rfl, rfl, rfl⟩, rfl, by simp, ?_⟩
    rw [show ([] : Sentence).length + 1 + fuel = fuel + 1 by simp; omega,
      sequencerWalk_succ (by simp [hp])]
    simp [sequencerStep, hp, phaseD2, hnone]
  | cons w rest ih =>
    have hsome : s.ops.se[s.scratch.i]? = some w := by
      rw [← List.head?_drop, hd]; rfl
    have htail : s.ops.se.drop (s.scratch.i + 1) = rest := by
      rw [← List.tail_drop, hd]; rfl
    rw [show (w :: rest).length + 1 + fuel = (rest.length + 1 + fuel) + 1 by simp; omega,
      sequencerWalk_succ (by simp [hp])]
    simp only [sequencerStep, hp, phaseD2, portSe_eq, hsome, joinChunks]
    cases hf : findEntry s.dict w with
    | ok idx =>
      simp only [Txn.bind_ok]
      rcases ih { s with scratch := { s.scratch with
              c := indexToChunk idx, s := s.scratch.s ++ indexToChunk idx, i := s.scratch.i + 1 } }
          hp htail with ⟨v, hv, u, hk, hph, hs, hw⟩ | ⟨he, hw⟩
      · simp only at hv
        refine .inl ⟨indexToChunk idx ++ v, by rw [hv]; rfl, u,
          ⟨hk.ops, hk.status, hk.dict, hk.txn⟩, hph, ?_, ?_⟩
        · simpa using hs
        · simpa [hp] using hw
      · simp only at he
        refine .inr ⟨by rw [he]; rfl, ?_⟩
        simpa [hp] using hw
    | err e =>
      have : e = .invalidWord := by
        unfold findEntry at hf
        split at hf
        · cases hf
        · cases hf; rfl
      subst this
      exact .inr ⟨rfl, rfl⟩
    | violation v => unfold findEntry at hf; split at hf <;> cases hf
    | stuck g => unfold findEntry at hf; split at hf <;> cases hf

theorem joinChunks_length {m : Memory} {ws : Sentence} {v : Bits} (h : joinChunks m ws = .ok v) :
    v.length = 11 * ws.length := by
  induction ws generalizing v with
  | nil => cases h; rfl
  | cons w rest ih =>
    obtain ⟨idx, _, h⟩ := Txn.bind_eq_ok.mp h
    obtain ⟨v', hv', h⟩ := Txn.bind_eq_ok.mp h
    cases h
    simp [ih hv']; omega

/-- Joining fails exactly if some word is absent. -/
theorem joinChunks_cases (m : Memory) (ws : Sentence) :
    ((∀ w ∈ ws, Memory.find m w ≠ none) ∧ ∃ v, joinChunks m ws = .ok v) ∨
    ((∃ w ∈ ws, Memory.find m w = none) ∧ joinChunks m ws = .err .invalidWord) := by
  induction ws with
  | nil => exact .inl ⟨by simp, [], rfl⟩
  | cons w rest ih =>
    cases hw : Memory.find m w with
    | none =>
      refine .inr ⟨⟨w, by simp, hw⟩, ?_⟩
      simp [joinChunks, findEntry, hw]
    | some idx =>
      rcases ih with ⟨hall, v, hv⟩ | ⟨⟨x, hx, hnone⟩, herr⟩
      · refine .inl ⟨?_, indexToChunk idx ++ v, by simp [joinChunks, findEntry, hw, hv]⟩
        intro x hx
        rcases List.mem_cons.mp hx with rfl | hx
        · simp [hw]
        · exact hall x hx
      · refine .inr ⟨⟨x, List.mem_cons_of_mem _ hx, hnone⟩, ?_⟩
        simp [joinChunks, findEntry, hw, herr]

/-- The whole walk of MN.DECODE on a sentence with a wrong number of words. -/
theorem decode_walk_count (env : Env) (s : State) (h : s.ops.se.length ∉ [12, 15, 18, 21, 24]) :
    sequencerWalk env walkBound { s with ph := .d1 } = .err .invalidMnemonicWordCount := by
  have hchk : checkWordCount s.ops.se = .err .invalidMnemonicWordCount := by
    rw [checkWordCount_eq, decide_eq_false h]; rfl
  rw [show walkBound = 29 + 1 from rfl, sequencerWalk_succ (by simp)]
  simp only [sequencerStep, phaseD1, portSe_eq, hchk, Txn.bind_err]

/-- The whole walk of MN.DECODE on a sentence with a valid number of words: an absent word, or a
checksum that does not match, or the bytes of the payload. -/
theorem decode_walk (env : Env) (s : State) (h : s.ops.se.length ∈ [12, 15, 18, 21, 24]) :
    (joinChunks s.dict s.ops.se = .err .invalidWord ∧
      sequencerWalk env walkBound { s with ph := .d1 } = .err .invalidWord) ∨
    (∃ v d, joinChunks s.dict s.ops.se = .ok v ∧ v.length = 11 * s.ops.se.length ∧
      bytesToBits d = v.take (v.length - v.length / 32) ∧
      ((lastBits (env.digest d)[0] (v.length / 32) ≠ v.drop (v.length - v.length / 32) ∧
        validate env v = .err .invalidChecksum ∧
        sequencerWalk env walkBound { s with ph := .d1 } = .err .invalidChecksum) ∨
       (lastBits (env.digest d)[0] (v.length / 32) = v.drop (v.length - v.length / 32) ∧
        validate env v = .ok () ∧
        ∃ u, sequencerWalk env walkBound { s with ph := .d1 } = .ok u ∧ u.res = { rby := some d }))) := by
  have hchk : checkWordCount s.ops.se = .ok () := by
    rw [checkWordCount_eq, decide_eq_true h]; rfl
  have hfuel : ∃ f, walkBound = (s.ops.se.length + 1 + (f + 1 + 1 + 1 + 1)) + 1 := by
    simp only [List.mem_cons, List.not_mem_nil, or_false] at h
    exact ⟨24 - s.ops.se.length, by unfold walkBound; omega⟩
  obtain ⟨f, hf⟩ := hfuel
  rw [hf, sequencerWalk_succ (by simp)]
  simp only [sequencerStep, phaseD1, portSe_eq, hchk, Txn.bind_ok]
  rcases walk_from_d2 env s.ops.se (f + 1 + 1 + 1 + 1)
    { s with ph := .d2, scratch := { s.scratch with wc := s.ops.se.length, s := [], i := 0 } }
    rfl rfl with ⟨v, hv, u, _, hph, hs, hw⟩ | ⟨he, hw⟩
  · simp only [List.nil_append] at hv hs
    have hlen := joinChunks_length hv
    rw [hw]
    have hd3 : sequencerStep env u = .ok { u with ph := .d4 } := by simp [sequencerStep, hph, phaseD3]
    rw [sequencerWalk_succ (by simp [hph]), hd3, Txn.bind_ok, sequencerWalk_succ (by simp)]
    simp only [sequencerStep, phaseD4, hs]
    simp only [List.mem_cons, List.not_mem_nil, or_false] at h
    rcases validate_cases env v with ⟨h1, _⟩ | ⟨_, h1, _⟩ | ⟨_, h8, d, hd, hval⟩
    · omega
    · omega
    · refine .inr ⟨v, d, hv, hlen, hd, ?_⟩
      by_cases hc : lastBits (env.digest d)[0] (v.length / 32) = v.drop (v.length - v.length / 32)
      · refine .inr ⟨hc, by rw [hval, decide_eq_true hc]; rfl, ?_⟩
        rw [hval, decide_eq_true hc]
        simp only [require_true, Txn.bind_ok]
        rw [sequencerWalk_succ (by simp)]
        have hp : popBack v (v.length / 32) =
            .ok (v.take (v.length - v.length / 32), v.drop (v.length - v.length / 32)) := by
          rcases popBack_cases v (v.length / 32) with ⟨_, h2⟩ | ⟨h2, _⟩
          · exact h2
          · omega
        simp only [sequencerStep, phaseD5, hs, hp, ← hd, bitsToBytes_bytesToBits, Txn.bind_ok]
        rw [sequencerWalk_succ (by simp)]
        simp only [sequencerStep, phaseD6, Txn.bind_ok]
        exact ⟨_, sequencerWalk_idle rfl, rfl⟩
      · refine .inl ⟨hc, by rw [hval, decide_eq_false hc]; rfl, ?_⟩
        rw [hval, decide_eq_false hc]
        simp
  · exact .inl ⟨he, hw⟩

/-- Joining the chunks of a slicing gives the sliced bits back (43_mnemonic.md R89, R96). -/
theorem joinChunks_sliceWords {m : Memory} (hm : m.HoldsDictionary) {k : Nat} {v : Bits} {ws : Sentence}
    (hl : v.length = 11 * k) (h : sliceWords m k v = .ok ws) : joinChunks m ws = .ok v := by
  induction k generalizing v ws with
  | zero =>
    cases h
    simp_all [joinChunks]
  | succ k ih =>
    obtain ⟨w, hw, h⟩ := Txn.bind_eq_ok.mp h
    obtain ⟨rest, hr, h⟩ := Txn.bind_eq_ok.mp h
    cases h
    have hread : Memory.read m (val (v.take 11)) = some w := by
      rcases hm.readEntry_cases (val (v.take 11)) with ⟨_, x, hx, hx'⟩ | ⟨_, hx'⟩
      · rw [hx'] at hw; cases hw; exact hx
      · rw [hx'] at hw; cases hw
    have hfind := hm.find_iff_read.mpr hread
    have h11 : (v.take 11).length = 11 := by rw [List.length_take]; omega
    simp only [joinChunks, findEntry, hfind, Txn.bind_ok,
      ih (v := v.drop 11) (by rw [List.length_drop]; omega) hr, indexToChunk_val _ h11,
      List.take_append_drop]

/-- Slicing the joined chunks of a sentence gives the sentence back (43_mnemonic.md R96). -/
theorem sliceWords_joinChunks {m : Memory} (hm : m.HoldsDictionary) {ws : Sentence} {v : Bits}
    (h : joinChunks m ws = .ok v) : sliceWords m ws.length v = .ok ws := by
  induction ws generalizing v with
  | nil => rfl
  | cons w rest ih =>
    obtain ⟨idx, hi, h⟩ := Txn.bind_eq_ok.mp h
    obtain ⟨v', hv', h⟩ := Txn.bind_eq_ok.mp h
    cases h
    have hfind : Memory.find m w = some idx := by
      unfold findEntry at hi
      split at hi
      · cases hi; assumption
      · cases hi
    have hlt := hm.find_lt hfind
    have hread := hm.find_iff_read.mp hfind
    have ht : (indexToChunk idx ++ v').take 11 = indexToChunk idx := by
      rw [List.take_append_of_le_length (by simp)]; exact List.take_of_length_le (by simp)
    have hdr : (indexToChunk idx ++ v').drop 11 = v' := by
      rw [List.drop_append_of_le_length (by simp)]
      simp
    simp only [List.length_cons, sliceWords, ht, hdr, val_indexToChunk, Nat.mod_eq_of_lt hlt,
      readEntry_of_read hlt hread, Txn.bind_ok, ih hv']

end Sys2Proof.Machine
end

