-- ==== Sys2Proof/Laws/Commands.lean ====
section
/-! SUPPORT. What `exec` can do, said once: every command is one `Txn`, and what each can come to. The
whole-machine claims are derived from `exec_cases` and `step_cases`. -/

namespace Sys2Proof.Machine

/-- The transaction of a command before its end is taken. -/
def commandOf (i : Instr) (s : State) : Txn State :=
  match i with
  | .sysRdst    => .ok (s.writeResults { rn := some ((readStatus s).setWidth 16) })
  | .dictLoad   => dictLoad s
  | .bvAppend   => (append Config.env s.ops.va s.ops.vb).bind fun r => .ok (s.writeResults { ra := some r })
  | .bvPopf     => (popFront s.ops.va s.ops.n.toNat).bind fun r =>
      .ok (s.writeResults { ra := some r.1, rb := some r.2 })
  | .bvPopb     => (popBack s.ops.va s.ops.n.toNat).bind fun r =>
      .ok (s.writeResults { ra := some r.1, rb := some r.2 })
  | .bvPadl     => (padLeft Config.env s.ops.va s.ops.n.toNat).bind fun r =>
      .ok (s.writeResults { ra := some r })
  | .bbB2bits   => (fitBits Config.env (bytesToBits s.ops.by_)).bind fun r =>
      .ok (s.writeResults { ra := some r })
  | .bbBits2b   => (bitsToBytes s.ops.va).bind fun r => .ok (s.writeResults { rby := some r })
  | .ckExtract  => (extract s.ops.by_ s.ops.n.toNat).bind fun r => .ok (s.writeResults { ra := some r })
  | .ckCompute  => (compute Config.env s.ops.by_).bind fun r => .ok (s.writeResults { ra := some r })
  | .ckSign     => (sign Config.env s.ops.by_).bind fun r => .ok (s.writeResults { ra := some r })
  | .ckValidate => (validate Config.env s.ops.va).bind fun _ => .ok (s.writeResults {})
  | .mnChklen   => (checkLength s.ops.by_).bind fun _ => .ok (s.writeResults {})
  | .mnChkwc    => (checkWordCount s.ops.se).bind fun _ => .ok (s.writeResults {})
  | .mnC2i      => (chunkToIndex Config.env s.ops.va).bind fun x =>
      .ok (s.writeResults { rn := some (numberRn x) })
  | .mnI2c      => .ok (s.writeResults { ra := some (indexToChunk s.ops.n.toNat) })
  | .dictWord   => dictWord s
  | .dictIndex  => dictIndex s
  | .mnEncode   => encodeCommand Config.env s
  | .mnDecode   => decodeCommand Config.env s

/-- Every command but SYS.RDST tests the fault latch first (60_exceptions.md R111). -/
theorem exec_eq_perform (i : Instr) (s : State) (h : i ≠ .sysRdst) :
    exec i s = perform s (commandOf i s) := by
  cases i <;> first | exact absurd rfl h | rfl

/-- SYS.RDST is performed also while faulted. -/
theorem exec_sysRdst (s : State) : exec .sysRdst s = settle s (commandOf .sysRdst s) := rfl

/-- A command that comes to Ok with results ends Ok with them, on an engine that is not faulted. -/
theorem exec_ends_ok {i : Instr} {s : State} {r : Results} (hi : i ≠ .sysRdst) (hf : s.faulted = false)
    (h : commandOf i s = .ok (s.writeResults r)) : ∃ t, exec i s = .next t ∧ EndsOk s t r :=
  ⟨_, by rw [exec_eq_perform i s hi, h, perform_ok hf], takeOk_ends s r⟩

/-- A command that comes to a typed error ends in it, on an engine that is not faulted. -/
theorem exec_ends_err {i : Instr} {s : State} {e : TypedError} (hi : i ≠ .sysRdst)
    (hf : s.faulted = false) (h : commandOf i s = .err e) : ∃ t, exec i s = .next t ∧ EndsErr s t e :=
  ⟨_, by rw [exec_eq_perform i s hi, h, perform_err hf], takeError_ends s e⟩

/-- A command that comes to a violation ends in it, on an engine that is not faulted. -/
theorem exec_ends_fault {i : Instr} {s : State} {v : Violation} (hi : i ≠ .sysRdst)
    (hf : s.faulted = false) (h : commandOf i s = .violation v) :
    ∃ t, exec i s = .next t ∧ EndsFault s t v :=
  ⟨_, by rw [exec_eq_perform i s hi, h, perform_violation hf], takeFault_ends s v⟩

/-- What a command writes when it ends Ok: the operand ports stay, STATUS and the dictionary stay but
for DICT.LOAD, and exactly the listed result ports hold a value. -/
theorem commandOf_ok {i : Instr} {s u : State} (h : commandOf i s = .ok u) :
    u.ops = s.ops ∧ u.txn = s.txn ∧ u.res.shape = writesOnOk i ∧
    (i ≠ .dictLoad → u.status = s.status ∧ u.dict = s.dict) := by
  cases i
  case sysRdst => cases h; exact ⟨rfl, rfl, rfl, fun _ => ⟨rfl, rfl⟩⟩
  case mnI2c => cases h; exact ⟨rfl, rfl, rfl, fun _ => ⟨rfl, rfl⟩⟩
  case ckCompute => cases h; exact ⟨rfl, rfl, rfl, fun _ => ⟨rfl, rfl⟩⟩
  case dictLoad =>
    obtain ⟨_, _, h⟩ := Txn.bind_eq_ok.mp h
    obtain ⟨_, _, h⟩ := Txn.bind_eq_ok.mp h
    cases h; exact ⟨rfl, rfl, rfl, fun hne => absurd rfl hne⟩
  case dictWord =>
    obtain ⟨_, _, h⟩ := Txn.bind_eq_ok.mp h
    obtain ⟨_, _, h⟩ := Txn.bind_eq_ok.mp h
    cases h; exact ⟨rfl, rfl, rfl, fun _ => ⟨rfl, rfl⟩⟩
  case dictIndex =>
    obtain ⟨_, _, h⟩ := Txn.bind_eq_ok.mp h
    obtain ⟨_, _, h⟩ := Txn.bind_eq_ok.mp h
    cases h; exact ⟨rfl, rfl, rfl, fun _ => ⟨rfl, rfl⟩⟩
  case mnEncode =>
    obtain ⟨_, _, h⟩ := Txn.bind_eq_ok.mp h
    have hk := sequencerWalk_keeps h
    refine ⟨hk.ops, hk.txn, ?_, fun _ => ⟨hk.status, hk.dict⟩⟩
    by_cases hl : s.ops.by_.length ∈ [16, 20, 24, 28, 32]
    · rcases encode_walk s hl with ⟨_, _, u', hu, hres⟩ | ⟨_, _, hg⟩
      · rw [hu] at h; cases h; rw [hres]; rfl
      · rw [hg] at h; cases h
    · rw [encode_walk_invalid _ s hl] at h; cases h
  case mnDecode =>
    obtain ⟨_, _, h⟩ := Txn.bind_eq_ok.mp h
    have hk := sequencerWalk_keeps h
    refine ⟨hk.ops, hk.txn, ?_, fun _ => ⟨hk.status, hk.dict⟩⟩
    by_cases hl : s.ops.se.length ∈ [12, 15, 18, 21, 24]
    · rcases decode_walk Config.env s hl with ⟨_, hw⟩ | ⟨_, _, _, _, _, ⟨_, _, hw⟩ | ⟨_, _, u', hu, hres⟩⟩
      · rw [hw] at h; cases h
      · rw [hw] at h; cases h
      · rw [hu] at h; cases h; rw [hres]; rfl
    · rw [decode_walk_count _ s hl] at h; cases h
  all_goals
    obtain ⟨_, _, h⟩ := Txn.bind_eq_ok.mp h
    cases h; exact ⟨rfl, rfl, rfl, fun _ => ⟨rfl, rfl⟩⟩

theorem append_ne_err {a b : Bits} {e : TypedError} : append Config.env a b ≠ .err e := by
  rcases fitBits_cases (a ++ b) with ⟨_, h⟩ | ⟨_, h⟩ <;> simp [append, h]

/-- The typed errors a command can end in (30_encoding.md R47). -/
theorem commandOf_err {i : Instr} {s : State} {e : TypedError} (h : commandOf i s = .err e) :
    e ∈ possibleErrors i := by
  cases i
  case sysRdst => cases h
  case mnI2c => cases h
  case dictLoad =>
    rcases Txn.bind_eq_err.mp h with h | ⟨_, _, h⟩
    · exact absurd h checkNot_ne_err
    · rcases Txn.bind_eq_err.mp h with h | ⟨_, _, h⟩
      · simp [possibleErrors, ← (require_eq_err.mp h).2]
      · cases h
  case bvAppend =>
    rcases Txn.bind_eq_err.mp h with h | ⟨_, _, h⟩
    · exact absurd h append_ne_err
    · cases h
  case bvPopf =>
    rcases popFront_cases s.ops.va s.ops.n.toNat with ⟨_, hp⟩ | ⟨_, hp⟩ <;> simp [commandOf, hp] at h
  case bvPopb =>
    rcases popBack_cases s.ops.va s.ops.n.toNat with ⟨_, hp⟩ | ⟨_, hp⟩ <;> simp [commandOf, hp] at h
  case bvPadl =>
    rcases padLeft_cases s.ops.va s.ops.n.toNat with ⟨_, hp, _⟩ | ⟨_, _, hp⟩ <;>
      simp [commandOf, hp] at h
  case bbB2bits =>
    rcases fitBits_cases (bytesToBits s.ops.by_) with ⟨_, hp⟩ | ⟨_, hp⟩ <;>
      simp [commandOf, hp] at h
  case bbBits2b =>
    rcases bitsToBytes_cases s.ops.va with ⟨_, hp⟩ | ⟨_, hp⟩ <;> simp [commandOf, hp] at h
  case ckExtract =>
    rcases extract_cases s.ops.by_ s.ops.n.toNat with ⟨_, _, _, hp⟩ | ⟨_, hp⟩ <;>
      simp [commandOf, hp] at h
  case ckCompute => simp [commandOf, compute_eq] at h
  case ckSign =>
    rcases fitBits_cases (bytesToBits s.ops.by_ ++
      lastBits (Config.env.digest s.ops.by_)[0] ((8 * s.ops.by_.length) / 32)) with ⟨_, hp⟩ | ⟨_, hp⟩ <;>
      simp [commandOf, sign_eq, hp] at h
  case ckValidate =>
    rcases Txn.bind_eq_err.mp h with h | ⟨_, _, h⟩
    · rcases validate_cases Config.env s.ops.va with ⟨_, hp⟩ | ⟨_, _, hp⟩ | ⟨_, _, _, _, hp⟩ <;>
        rw [hp] at h
      · cases h
      · cases h
      · simp [possibleErrors, ← (require_eq_err.mp h).2]
    · cases h
  case mnChklen =>
    rcases Txn.bind_eq_err.mp h with h | ⟨_, _, h⟩
    · simp [possibleErrors, ← (require_eq_err.mp h).2]
    · cases h
  case mnChkwc =>
    rcases Txn.bind_eq_err.mp h with h | ⟨_, _, h⟩
    · simp [possibleErrors, ← (require_eq_err.mp h).2]
    · cases h
  case mnC2i =>
    rcases chunkToIndex_cases s.ops.va with ⟨_, hp⟩ | ⟨_, hp⟩ <;> simp [commandOf, hp] at h
  case dictWord =>
    rcases Txn.bind_eq_err.mp h with h | ⟨_, _, h⟩
    · exact absurd h checkNot_ne_err
    · rcases Txn.bind_eq_err.mp h with h | ⟨_, _, h⟩
      · unfold readEntry at h; split at h <;> (try split at h) <;> cases h
      · cases h
  case dictIndex =>
    rcases Txn.bind_eq_err.mp h with h | ⟨_, _, h⟩
    · exact absurd h checkNot_ne_err
    · rcases Txn.bind_eq_err.mp h with h | ⟨_, _, h⟩
      · unfold findEntry at h; split at h
        · cases h
        · cases h; simp [possibleErrors]
      · cases h
  case mnEncode =>
    rcases Txn.bind_eq_err.mp h with h | ⟨_, _, h⟩
    · exact absurd h checkNot_ne_err
    · by_cases hl : s.ops.by_.length ∈ [16, 20, 24, 28, 32]
      · rcases encode_walk s hl with ⟨_, _, u', hu, _⟩ | ⟨_, _, hg⟩
        · rw [hu] at h; cases h
        · rw [hg] at h; cases h
      · rw [encode_walk_invalid _ s hl] at h; cases h; simp [possibleErrors]
  case mnDecode =>
    rcases Txn.bind_eq_err.mp h with h | ⟨_, _, h⟩
    · exact absurd h checkNot_ne_err
    · by_cases hl : s.ops.se.length ∈ [12, 15, 18, 21, 24]
      · rcases decode_walk Config.env s hl with ⟨_, hw⟩ | ⟨_, _, _, _, _, ⟨_, _, hw⟩ | ⟨_, _, u', hu, _⟩⟩
        · rw [hw] at h; cases h; simp [possibleErrors]
        · rw [hw] at h; cases h; simp [possibleErrors]
        · rw [hu] at h; cases h
      · rw [decode_walk_count _ s hl] at h; cases h; simp [possibleErrors]

/-- The contract violations a command can end in (30_encoding.md R47). -/
theorem commandOf_violation {i : Instr} {s : State} {v : Violation} (h : commandOf i s = .violation v) :
    v ∈ possibleViolations i := by
  cases i
  case sysRdst => cases h
  case mnI2c => cases h
  case dictLoad =>
    rcases Txn.bind_eq_violation.mp h with h | ⟨_, _, h⟩
    · simp [possibleViolations, ← (checkNot_eq_violation.mp h).2]
    · rcases Txn.bind_eq_violation.mp h with h | ⟨_, _, h⟩
      · exact absurd h require_ne_violation
      · cases h
  case bvAppend =>
    rcases fitBits_cases (s.ops.va ++ s.ops.vb) with ⟨_, hp⟩ | ⟨_, hp⟩
    · simp [commandOf, append, hp] at h
    · simp [commandOf, append, hp] at h; simp [possibleViolations, h]
  case bvPopf =>
    rcases popFront_cases s.ops.va s.ops.n.toNat with ⟨_, hp⟩ | ⟨_, hp⟩
    · simp [commandOf, hp] at h
    · simp [commandOf, hp] at h; simp [possibleViolations, h]
  case bvPopb =>
    rcases popBack_cases s.ops.va s.ops.n.toNat with ⟨_, hp⟩ | ⟨_, hp⟩
    · simp [commandOf, hp] at h
    · simp [commandOf, hp] at h; simp [possibleViolations, h]
  case bvPadl =>
    rcases padLeft_cases s.ops.va s.ops.n.toNat with ⟨_, hp, _⟩ | ⟨_, _, hp⟩
    · simp [commandOf, hp] at h
    · simp [commandOf, hp] at h; simp [possibleViolations, h]
  case bbB2bits =>
    rcases fitBits_cases (bytesToBits s.ops.by_) with ⟨_, hp⟩ | ⟨_, hp⟩
    · simp [commandOf, hp] at h
    · simp [commandOf, hp] at h; simp [possibleViolations, h]
  case bbBits2b =>
    rcases bitsToBytes_cases s.ops.va with ⟨_, hp⟩ | ⟨_, hp⟩
    · simp [commandOf, hp] at h
    · simp [commandOf, hp] at h; simp [possibleViolations, h]
  case ckExtract =>
    rcases extract_cases s.ops.by_ s.ops.n.toNat with ⟨_, _, _, hp⟩ | ⟨_, hp⟩
    · simp [commandOf, hp] at h
    · simp [commandOf, hp] at h; simp [possibleViolations, h]
  case ckCompute => simp [commandOf, compute_eq] at h
  case ckSign =>
    rcases fitBits_cases (bytesToBits s.ops.by_ ++
      lastBits (Config.env.digest s.ops.by_)[0] ((8 * s.ops.by_.length) / 32)) with ⟨_, hp⟩ | ⟨_, hp⟩
    · simp [commandOf, sign_eq, hp] at h
    · simp [commandOf, sign_eq, hp] at h; simp [possibleViolations, h]
  case ckValidate =>
    rcases Txn.bind_eq_violation.mp h with h | ⟨_, _, h⟩
    · rcases validate_cases Config.env s.ops.va with ⟨_, hp⟩ | ⟨_, _, hp⟩ | ⟨_, _, _, _, hp⟩ <;>
        rw [hp] at h
      · cases h; simp [possibleViolations]
      · cases h; simp [possibleViolations]
      · exact absurd h require_ne_violation
    · cases h
  case mnChklen =>
    rcases Txn.bind_eq_violation.mp h with h | ⟨_, _, h⟩
    · exact absurd h require_ne_violation
    · cases h
  case mnChkwc =>
    rcases Txn.bind_eq_violation.mp h with h | ⟨_, _, h⟩
    · exact absurd h require_ne_violation
    · cases h
  case mnC2i =>
    rcases chunkToIndex_cases s.ops.va with ⟨_, hp⟩ | ⟨_, hp⟩
    · simp [commandOf, hp] at h
    · simp [commandOf, hp] at h; simp [possibleViolations, h]
  case dictWord =>
    rcases Txn.bind_eq_violation.mp h with h | ⟨_, _, h⟩
    · simp [possibleViolations, ← (checkNot_eq_violation.mp h).2]
    · rcases Txn.bind_eq_violation.mp h with h | ⟨_, _, h⟩
      · unfold readEntry at h; split at h
        · cases h; simp [possibleViolations]
        · split at h <;> cases h
      · cases h
  case dictIndex =>
    rcases Txn.bind_eq_violation.mp h with h | ⟨_, _, h⟩
    · simp [possibleViolations, ← (checkNot_eq_violation.mp h).2]
    · rcases Txn.bind_eq_violation.mp h with h | ⟨_, _, h⟩
      · unfold findEntry at h; split at h <;> cases h
      · cases h
  case mnEncode =>
    rcases Txn.bind_eq_violation.mp h with h | ⟨_, _, h⟩
    · simp [possibleViolations, ← (checkNot_eq_violation.mp h).2]
    · by_cases hl : s.ops.by_.length ∈ [16, 20, 24, 28, 32]
      · rcases encode_walk s hl with ⟨_, _, u', hu, _⟩ | ⟨_, _, hg⟩
        · rw [hu] at h; cases h
        · rw [hg] at h; cases h
      · rw [encode_walk_invalid _ s hl] at h; cases h
  case mnDecode =>
    rcases Txn.bind_eq_violation.mp h with h | ⟨_, _, h⟩
    · simp [possibleViolations, ← (checkNot_eq_violation.mp h).2]
    · by_cases hl : s.ops.se.length ∈ [12, 15, 18, 21, 24]
      · rcases decode_walk Config.env s hl with ⟨_, hw⟩ | ⟨_, _, _, _, _, ⟨_, _, hw⟩ | ⟨_, _, u', hu, _⟩⟩
        · rw [hw] at h; cases h
        · rw [hw] at h; cases h
        · rw [hu] at h; cases h
      · rw [decode_walk_count _ s hl] at h; cases h

/-- Everything DICT.LOAD comes to on Ok (44_dictionary_system.md R101). -/
theorem dictLoad_ok {s u : State} (h : dictLoad s = .ok u) :
    s.dictReady = false ∧ s.ops.se.length = 2048 ∧ s.ops.se.Nodup ∧
    u = ({ s with dict := Memory.writeAll s.dict 0 s.ops.se }.setReady).writeResults {} := by
  obtain ⟨_, h1, h⟩ := Txn.bind_eq_ok.mp h
  obtain ⟨_, h2, h⟩ := Txn.bind_eq_ok.mp h
  have h3 := require_eq_ok.mp h2
  simp only [validWordList, portSe_eq, Bool.and_eq_true] at h3
  cases h
  exact ⟨checkNot_eq_ok.mp h1, of_decide_eq_true h3.1, of_decide_eq_true h3.2, rfl⟩

theorem dictLoad_of_valid {s : State} (h : s.dictReady = false) (hl : s.ops.se.length = 2048)
    (hn : s.ops.se.Nodup) :
    dictLoad s = .ok (({ s with dict := Memory.writeAll s.dict 0 s.ops.se }.setReady).writeResults {}) := by
  simp [dictLoad, h, validWordList, hl, hn]

/-- EVERYTHING A COMMAND CAN ANSWER AS A NEXT STATE: a refusal while faulted, an Ok that leaves STATUS
and the dictionary alone, the load, a typed error of its list, or a violation of its list. -/
theorem exec_cases {i : Instr} {s t : State} (h : exec i s = .next t) :
    (i ≠ .sysRdst ∧ s.faulted = true ∧ t = refuseLatched s) ∨
    ((i ≠ .sysRdst → s.faulted = false) ∧
      ((∃ r, r.shape = writesOnOk i ∧ i ≠ .dictLoad ∧ t = takeOk (s.writeResults r)) ∨
       (i = .dictLoad ∧ s.dictReady = false ∧ s.ops.se.length = 2048 ∧ s.ops.se.Nodup ∧
         t = takeOk (({ s with dict := Memory.writeAll s.dict 0 s.ops.se }.setReady).writeResults {})) ∨
       (∃ e ∈ possibleErrors i, t = takeError s e) ∨
       (∃ v ∈ possibleViolations i, t = takeFault s v))) := by
  by_cases hi : i = .sysRdst
  · subst hi
    rw [exec_sysRdst] at h
    cases h
    exact .inr ⟨fun h => absurd rfl h, .inl ⟨_, rfl, by simp, rfl⟩⟩
  · rw [exec_eq_perform i s hi] at h
    rcases perform_next.mp h with ⟨hf, rfl⟩ | ⟨hf, ⟨a, ha, rfl⟩ | ⟨e, he, rfl⟩ | ⟨v, hv, rfl⟩⟩
    · exact .inl ⟨hi, hf, rfl⟩
    · refine .inr ⟨fun _ => hf, ?_⟩
      by_cases hd : i = .dictLoad
      · subst hd
        obtain ⟨h1, h2, h3, rfl⟩ := dictLoad_ok ha
        exact .inr (.inl ⟨rfl, h1, h2, h3, rfl⟩)
      · obtain ⟨hops, htxn, hshape, hk⟩ := commandOf_ok ha
        refine .inl ⟨a.res, hshape, hd, takeOk_eq_of_keeps ⟨hops, (hk hd).1, (hk hd).2, htxn⟩⟩
    · exact .inr ⟨fun _ => hf, .inr (.inr (.inl ⟨e, commandOf_err he, rfl⟩))⟩
    · exact .inr ⟨fun _ => hf, .inr (.inr (.inr ⟨v, commandOf_violation hv, rfl⟩))⟩

/-- The same of a step: a decoded command, or an illegal byte. -/
theorem step_cases {s t : State} (h : step s = .next t) :
    (∃ i, decode s.ops.cmd = .ok i ∧ exec i s = .next t) ∨
    (decode s.ops.cmd = .error .illegalCommand ∧
      ((s.faulted = true ∧ t = refuseLatched s) ∨
       (s.faulted = false ∧ t = takeFault s .illegalCommand))) := by
  unfold step at h
  rw [portCmd_eq] at h
  cases hd : decode s.ops.cmd with
  | ok i => rw [hd] at h; exact .inl ⟨i, rfl, h⟩
  | error r =>
    cases r
    rw [hd] at h
    refine .inr ⟨rfl, ?_⟩
    rcases perform_next.mp h with ⟨hf, rfl⟩ | ⟨hf, ⟨a, ha, _⟩ | ⟨e, he, _⟩ | ⟨v, hv, rfl⟩⟩
    · exact .inl ⟨hf, rfl⟩
    · cases ha
    · cases he
    · cases hv; exact .inr ⟨hf, rfl⟩

end Sys2Proof.Machine
end

