-- ==== Sys2Proof/Laws/Relations.lean ====
section
/-! SUPPORT. The data encodings of Safety.lean hold of what the operations compute, bit by bit. -/

namespace Sys2Proof.Machine

/-- B2BITS puts bit 7 - i of byte j at position 8j + i (20_memory.md R32). -/
theorem bytesToBits_isBitsOf (d : ByteSeq) : IsBitsOf d (bytesToBits d) := by
  refine ⟨by simp, ?_⟩
  induction d with
  | nil => simp
  | cons x d ih =>
    intro j y hj i hi
    cases j with
    | zero =>
      simp at hj; subst hj
      rw [bytesToBits_cons, List.getElem?_append_left (by simp; omega)]
      simpa using byteToBits_getElem? x i hi
    | succ j =>
      rw [bytesToBits_cons, List.getElem?_append_right (by simp; omega)]
      have := ih j y (by simpa using hj) i hi
      rw [← this]; congr 1; simp; omega

/-- So does BITS2B, read backwards (41_bytebit.md R71). -/
theorem bitsToBytes_isBitsOf {v : Bits} {d} (h : bitsToBytes v = .ok d) : IsBitsOf d v := by
  have := bytesToBits_isBitsOf d
  rwa [bytesToBits_of_bitsToBytes h] at this

/-- EXTRACT takes the low end of the byte (42_checksum.md R75). -/
theorem lastBits_isChecksum (x : Byte) (k : Nat) : IsChecksum x k (lastBits x k) := by
  refine ⟨by simp, fun i hi => ?_⟩
  unfold lastBits
  split
  · rename_i h
    rw [List.getElem?_drop, byteToBits_getElem? _ _ (by omega)]
    congr 2; omega
  · rw [byteToBits_getElem? _ _ (by omega)]
    congr 2; omega

/-- Bit i of a vector is the bit of its value with weight 2^(len - 1 - i) (00_scope.md R7). -/
theorem getElem?_eq_testBit_val (v : Bits) (i : Nat) (h : i < v.length) :
    v[i]? = some ((val v).testBit (v.length - 1 - i)) := by
  have := bitsOf_val v
  conv_lhs => rw [← this]
  simp [bitsOf, h]

/-- I2C keeps bits 10 to 0 of the number (43_mnemonic.md R88). -/
theorem indexToChunk_getElem? (x : Nat) (i : Nat) (h : i < 11) :
    (indexToChunk x)[i]? = some (x.testBit (10 - i)) := by
  rw [indexToChunk, List.getElem?_drop]
  simp [bitsOf, show 5 + i < 16 by omega]
  congr 1; omega

/-- The value of bits 11j .. 11j+10 is their index (30_encoding.md R54). -/
theorem isChunk_val (v : Bits) (j : Nat) (hj : 11 * j + 11 ≤ v.length) :
    IsChunk v j (val ((v.drop (11 * j)).take 11)) := by
  have hl : ((v.drop (11 * j)).take 11).length = 11 := by rw [List.length_take, List.length_drop]; omega
  have := val_lt ((v.drop (11 * j)).take 11)
  rw [hl] at this
  refine ⟨this, fun i hi => ?_⟩
  have h := getElem?_eq_testBit_val ((v.drop (11 * j)).take 11) i (by omega)
  rw [hl] at h
  rw [show 11 - 1 - i = 10 - i by omega] at h
  rw [← h, List.getElem?_take_of_lt hi, List.getElem?_drop]

/-- The lookup by word fails exactly on an absent word, in every memory in canonical form, whatever it
holds (20_memory.md R31). -/
theorem Memory.lacks_iff {m : Memory} (h : Memory.wf m = true) (w : Word) :
    m.Lacks w ↔ Memory.find m w = none := by
  have hk := Memory.keys_nodup_of_wf h
  rw [Memory.find_eq_none_iff]
  exact forall_congr' fun i =>
    not_congr ⟨Memory.read_eq_some_mem, Memory.read_of_mem hk⟩

/-- The same of a complete dictionary. -/
theorem Memory.HoldsDictionary.lacks_iff {m : Memory} (h : m.HoldsDictionary) (w : Word) :
    m.Lacks w ↔ Memory.find m w = none := Memory.lacks_iff h.wf w

/-- The load check, index by index (44_dictionary_system.md R101). -/
theorem nodup_iff_getElem?_ne (l : List Word) (hl : l.length = 2048) :
    l.Nodup ↔ ∀ i j, i < j → j < 2048 → l[i]? ≠ l[j]? := by
  rw [List.nodup_iff_getElem?_ne_getElem?, hl]

/-- Slicing k chunks gives k words. -/
theorem sliceWords_length {m : Memory} {k : Nat} {v : Bits} {ws} (h : sliceWords m k v = .ok ws) :
    ws.length = k := by
  induction k generalizing v ws with
  | zero => cases h; rfl
  | succ k ih =>
    obtain ⟨w, hw, h⟩ := Txn.bind_eq_ok.mp h
    obtain ⟨rest, hr, h⟩ := Txn.bind_eq_ok.mp h
    cases h; simp [ih hr]

/-- Each word of a sentence that joins is the entry of its chunk (43_mnemonic.md R92). -/
theorem joinChunks_isChunk {m : Memory} (hd : m.HoldsDictionary) {ws : Sentence} {v : Bits}
    (h : joinChunks m ws = .ok v) (j : Nat) (w : Word) (hj : ws[j]? = some w) :
    ∃ idx, Memory.read m idx = some w ∧ IsChunk v j idx := by
  have hs := sliceWords_joinChunks hd h
  have hl := joinChunks_length h
  have hjl : j < ws.length := by
    by_contra hh; rw [List.getElem?_eq_none (by omega)] at hj; cases hj
  obtain ⟨w', hw', hread⟩ := sliceWords_getElem? hs j hjl
  rw [hj] at hw'; cases hw'
  exact ⟨_, hread, isChunk_val _ _ (by omega)⟩

/-- What SIGN made of at most 34 bytes validates (42_checksum.md R79). -/
theorem validate_signedBits (e : ByteSeq) (h : e.length ≤ 34) :
    validate Config.env (signedBits e) = .ok () := by
  have hl := signedBits_length e
  have hk : (signedBits e).length / 32 = 8 * e.length / 32 := by omega
  rcases validate_cases Config.env (signedBits e) with ⟨h1, hp⟩ | ⟨h1, h2, hp⟩ | ⟨h1, h2, d, hd, hp⟩
  · omega
  · omega
  · have ht : (signedBits e).length - (signedBits e).length / 32 = (bytesToBits e).length := by simp; omega
    have hd' : d = e := by
      rw [ht] at hd
      have : bytesToBits d = bytesToBits e := by rw [hd]; simp [signedBits]
      have := congrArg bitsToBytes this
      simpa [bitsToBytes_bytesToBits] using this
    subst hd'
    rw [hp, decide_eq_true]; rfl
    rw [ht, hk]; simp [signedBits, Config.env]

end Sys2Proof.Machine
end

