-- ==== Sys2Proof/Laws/Session.lean ====
section
/-! SUPPORT. What `issue` can answer, said once: the host's view of one command. -/

namespace Sys2Proof.Machine

variable {α : Type}

theorem decode_encode (i : Instr) : decode (encode i) = .ok i := by cases i <;> rfl

theorem step_of_decode {s : State} {i : Instr} (h : decode s.ops.cmd = .ok i) : step s = exec i s := by
  simp [step, h]

theorem step_present (s : State) (i : Instr) (p : Operands) :
    step (s.present i p) = exec i (s.present i p) := step_of_decode (decode_encode i)

/-- A command that comes to Ok answers its result and leaves STATUS and the dictionary alone. -/
theorem issue_ok {i : Instr} {p : Operands} {f : Results → Option α} {s u : State} {a : α}
    (hi : i ≠ .sysRdst) (hd : i ≠ .dictLoad) (hf : s.faulted = false)
    (h : commandOf i (s.present i p) = .ok u) (ha : f u.res = some a) :
    ∃ t, issue i p f s = .done a t ∧ t.status = s.status ∧ t.dict = s.dict := by
  have hk := (commandOf_ok h).2.2.2 hd
  refine ⟨takeOk u, ?_, hk.1, hk.2⟩
  unfold issue
  rw [step_present, exec_eq_perform _ _ hi, h, perform_ok (by simpa using hf)]
  simp [stOk, ha]

/-- A command that comes to a typed error answers its code. -/
theorem issue_err {i : Instr} {p : Operands} {f : Results → Option α} {s : State} {e : TypedError}
    (hi : i ≠ .sysRdst) (hf : s.faulted = false) (h : commandOf i (s.present i p) = .err e) :
    ∃ t, issue i p f s = .failed (errorCode e) t ∧ t.status = s.status ∧ t.dict = s.dict := by
  refine ⟨takeError (s.present i p) e, ?_, rfl, rfl⟩
  unfold issue
  rw [step_present, exec_eq_perform _ _ hi, h, perform_err (by simpa using hf)]
  simp [stOk, errorCode_ne_zero]

/-- A command that comes to a violation answers FAULTED and leaves its reason in FREASON. -/
theorem issue_violation {i : Instr} {p : Operands} {f : Results → Option α} {s : State} {v : Violation}
    (hi : i ≠ .sysRdst) (hf : s.faulted = false) (h : commandOf i (s.present i p) = .violation v) :
    ∃ t, issue i p f s = .failed 15#4 t ∧ t.freason = violationCode v := by
  refine ⟨takeFault (s.present i p) v, ?_, by simp⟩
  unfold issue
  rw [step_present, exec_eq_perform _ _ hi, h, perform_violation (by simpa using hf)]
  simp [stOk]

/-- A result that a host has read came from an Ok. -/
theorem issue_done {i : Instr} {p : Operands} {f : Results → Option α} {s t : State} {a : α}
    (hi : i ≠ .sysRdst) (hd : i ≠ .dictLoad) (hf : s.faulted = false) (h : issue i p f s = .done a t) :
    ∃ u, commandOf i (s.present i p) = .ok u ∧ f u.res = some a ∧
      t.status = s.status ∧ t.dict = s.dict := by
  have hf' : (s.present i p).faulted = false := by simpa using hf
  unfold issue at h
  rw [step_present, exec_eq_perform _ _ hi] at h
  cases hc : commandOf i (s.present i p) with
  | ok u =>
    rw [hc, perform_ok hf'] at h
    have hk := (commandOf_ok hc).2.2.2 hd
    simp only [takeOk_st, stOk, if_true, takeOk_res] at h
    split at h
    · rename_i ha
      cases h
      exact ⟨u, rfl, ha, hk.1, hk.2⟩
    · cases h
  | err e =>
    rw [hc, perform_err hf'] at h
    simp [stOk, errorCode_ne_zero] at h
  | violation v =>
    rw [hc, perform_violation hf'] at h
    simp [stOk] at h
  | stuck g =>
    rw [hc] at h
    simp only [perform, hf', settle] at h
    cases h

end Sys2Proof.Machine
end

