-- ==== Sys2Proof/Laws/Outcomes.lean ====
section
/-! SUPPORT. What a command comes to, said once each: that it ends, that its results fit their ports,
that it depends on its listed operands alone, and what a step keeps. -/

namespace Sys2Proof.Machine

/-! ### STATUS kept -/

/-- The latch depends on STATUS alone. -/
theorem faulted_of_status {s t : State} (h : t.status = s.status) (hf : s.faulted = false) :
    t.faulted = false := by
  simpa [State.faulted, h] using hf

/-- Readiness depends on STATUS alone. -/
theorem ready_of_status {s t : State} (h : t.status = s.status) (hf : s.dictReady = true) :
    t.dictReady = true := by
  simpa [State.dictReady, h] using hf

/-- A command other than the load that comes to Ok ends Ok with its results. -/
theorem exec_ends_results {i : Instr} {s u : State} (hi : i ≠ .sysRdst) (hd : i ≠ .dictLoad)
    (hf : s.faulted = false) (h : commandOf i s = .ok u) :
    ∃ t, exec i s = .next t ∧ EndsOk s t u.res := by
  have hk := commandOf_ok h
  refine ⟨takeOk u, by rw [exec_eq_perform _ _ hi, h, perform_ok hf], ⟨rfl, rfl, hk.1, (hk.2.2.2 hd).1,
      (hk.2.2.2 hd).2, rfl⟩⟩

/-! ### The composites on a loaded dictionary -/

/-- MN.ENCODE of a valid entropy gives the words of its signed bits. -/
theorem commandOf_encode_ok {s : State} (hr : s.dictReady = true) (hd : s.dict.HoldsDictionary)
    (hl : s.ops.by_.length ∈ [16, 20, 24, 28, 32]) :
   ∃ ws u, sliceWords s.dict (3 * (s.ops.by_.length / 4)) (signedBits s.ops.by_) = .ok ws ∧
    commandOf .mnEncode s = .ok u ∧ u.res = { rse := some ws } := by
  rcases encode_walk s hl with ⟨ws, hw, u, hu, hres⟩ | ⟨g, hg, _⟩
  · exact ⟨ws, u, hw, by simpa [commandOf, encodeCommand, requireReady_ready hr] using hu, hres⟩
  · obtain ⟨ws, hw, _⟩ := sliceWords_ok hd (3 * (s.ops.by_.length / 4)) (signedBits s.ops.by_)
    rw [hw] at hg; cases hg

/-- MN.DECODE of words whose chunks join to signed bits gives the signed bytes. -/
theorem commandOf_decode_ok {s : State} (hr : s.dictReady = true) {e : ByteSeq} (he : e.length ≤ 34)
   (hl : s.ops.se.length ∈ [12, 15, 18, 21, 24]) (hj : joinChunks s.dict s.ops.se = .ok (signedBits e)) :
   ∃ u, commandOf .mnDecode s = .ok u ∧ u.res = { rby := some e } := by
  rcases decode_walk Config.env s hl with ⟨hj', _⟩ | ⟨v, d, hj', hvl, hdv, hcase⟩
  · rw [hj] at hj'; cases hj'
  · rw [hj] at hj'; cases hj'
    rcases hcase with ⟨_, hv, _⟩ | ⟨hc, _, u, hu, hres⟩
    · rw [validate_signedBits e he] at hv; cases hv
    · have : d = e := by
        have h2 := signedBits_length e
        rw [show (signedBits e).length - (signedBits e).length / 32 =
            (bytesToBits e).length by rw [bytesToBits_length]; omega] at hdv
        have : bytesToBits d = bytesToBits e := by rw [hdv]; simp [signedBits]
        simpa [bitsToBytes_bytesToBits] using congrArg bitsToBytes this
      subst this
      exact ⟨u, by simp [commandOf, decodeCommand, requireReady_ready hr, hu], hres⟩

/-! ### Every command ends -/

/-- A read stops only on an entry that no load has written. -/
theorem readEntry_stuck {m i g} (h : readEntry m i = .stuck g) :
    g = .dictEntryUnwritten ∧ ¬ m.HoldsDictionary := by
  constructor
  · unfold readEntry at h; split at h
    · cases h
    · split at h <;> cases h; rfl
  · intro hd
    rcases hd.readEntry_cases i with ⟨_, w, _, hw⟩ | ⟨_, hw⟩ <;> rw [hw] at h <;> cases h

/-- The same of a slicing. -/
theorem sliceWords_stuck {m k v g} (h : sliceWords m k v = .stuck g) :
    g = .dictEntryUnwritten ∧ ¬ m.HoldsDictionary := by
  induction k generalizing v with
  | zero => cases h
  | succ k ih =>
    rcases Txn.bind_eq_stuck.mp h with h | ⟨_, _, h⟩
    · exact readEntry_stuck h
    · rcases Txn.bind_eq_stuck.mp h with h | ⟨_, _, h⟩
      · exact ih h
      · cases h

/-- The model stops only on an unwritten entry of a dictionary that is marked ready. -/
theorem commandOf_stuck {i : Instr} {s : State} {g : Fault} (h : commandOf i s = .stuck g) :
    g = .dictEntryUnwritten ∧ s.dictReady = true ∧ ¬ s.dict.HoldsDictionary := by
  cases i
  case sysRdst => cases h
  case mnI2c => cases h
  case dictLoad =>
    rcases Txn.bind_eq_stuck.mp h with h | ⟨_, _, h⟩
    · exact absurd h checkNot_ne_stuck
    · rcases Txn.bind_eq_stuck.mp h with h | ⟨_, _, h⟩
      · exact absurd h require_ne_stuck
      · cases h
  case bvAppend =>
    rcases fitBits_cases (s.ops.va ++ s.ops.vb) with ⟨_, hp⟩ | ⟨_, hp⟩ <;>
        simp [commandOf, append, hp] at h
  case bvPopf =>
    rcases popFront_cases s.ops.va s.ops.n.toNat with ⟨_, hp⟩ | ⟨_, hp⟩ <;> simp [commandOf, hp] at h
  case bvPopb =>
    rcases popBack_cases s.ops.va s.ops.n.toNat with ⟨_, hp⟩ | ⟨_, hp⟩ <;> simp [commandOf, hp] at h
  case bvPadl =>
    rcases padLeft_cases s.ops.va s.ops.n.toNat with ⟨_, hp, _⟩ | ⟨_, _, hp⟩ <;>
        simp [commandOf, hp] at h
  case bbB2bits =>
    rcases fitBits_cases (bytesToBits s.ops.by_) with ⟨_, hp⟩ | ⟨_, hp⟩ <;>
        simp [commandOf, hp] at h
  case bbBits2b =>
    rcases bitsToBytes_cases s.ops.va with ⟨_, hp⟩ | ⟨_, hp⟩ <;> simp [commandOf, hp] at h
  case ckExtract =>
    rcases extract_cases s.ops.by_ s.ops.n.toNat with ⟨_, _, _, hp⟩ | ⟨_, hp⟩ <;> simp [commandOf, hp] at h
  case ckCompute => simp [commandOf, compute_eq] at h
  case ckSign =>
    rcases fitBits_cases (signedBits s.ops.by_) with ⟨_, hp⟩ | ⟨_, hp⟩ <;>
      (simp only [commandOf, sign_eq] at h; erw [hp] at h; cases h)
  case ckValidate =>
    rcases Txn.bind_eq_stuck.mp h with h | ⟨_, _, h⟩
    · rcases validate_cases Config.env s.ops.va with ⟨_, hp⟩ | ⟨_, _, hp⟩ | ⟨_, _, _, _, hp⟩ <;>
          rw [hp] at h
      · cases h
      · cases h
      · exact absurd h require_ne_stuck
    · cases h
  case mnChklen =>
    rcases Txn.bind_eq_stuck.mp h with h | ⟨_, _, h⟩
    · exact absurd h require_ne_stuck
    · cases h
  case mnChkwc =>
    rcases Txn.bind_eq_stuck.mp h with h | ⟨_, _, h⟩
    · exact absurd h require_ne_stuck
    · cases h
  case mnC2i =>
    rcases chunkToIndex_cases s.ops.va with ⟨_, hp⟩ | ⟨_, hp⟩ <;> simp [commandOf, hp] at h
  case dictWord =>
    rcases Txn.bind_eq_stuck.mp h with h | ⟨_, hr, h⟩
    · exact absurd h checkNot_ne_stuck
    · rcases Txn.bind_eq_stuck.mp h with h | ⟨_, _, h⟩
      · have := readEntry_stuck h
        exact ⟨this.1, by simpa using checkNot_eq_ok.mp hr, this.2⟩
      · cases h
  case dictIndex =>
    rcases Txn.bind_eq_stuck.mp h with h | ⟨_, _, h⟩
    · exact absurd h checkNot_ne_stuck
    · rcases Txn.bind_eq_stuck.mp h with h | ⟨_, _, h⟩
      · unfold findEntry at h; split at h <;> cases h
      · cases h
  case mnEncode =>
    rcases Txn.bind_eq_stuck.mp h with h | ⟨_, hr, h⟩
    · exact absurd h checkNot_ne_stuck
    · by_cases hl : s.ops.by_.length ∈ [16, 20, 24, 28, 32]
      · rcases encode_walk s hl with ⟨_, _, u', hu, _⟩ | ⟨_, hs, hg⟩
        · rw [hu] at h; cases h
        · rw [hg] at h; cases h
          have := sliceWords_stuck hs
          exact ⟨this.1, by simpa using checkNot_eq_ok.mp hr, this.2⟩
      · rw [encode_walk_invalid _ s hl] at h; cases h
  case mnDecode =>
    rcases Txn.bind_eq_stuck.mp h with h | ⟨_, _, h⟩
    · exact absurd h checkNot_ne_stuck
    · by_cases hl : s.ops.se.length ∈ [12, 15, 18, 21, 24]
      · rcases decode_walk Config.env s hl with ⟨_, hw⟩ | ⟨_, _, _, _, _, ⟨_, _, hw⟩ | ⟨_, _, u', hu, _⟩⟩
        · rw [hw] at h; cases h
        · rw [hw] at h; cases h
        · rw [hu] at h; cases h
      · rw [decode_walk_count _ s hl] at h; cases h

/-- Every command answers a next state, or stops on such an entry. -/
theorem exec_next_or_unwritten (i : Instr) (s : State) : (∃ t, exec i s = .next t) ∨
    (exec i s = .fault .dictEntryUnwritten ∧ s.dictReady = true ∧ ¬ s.dict.HoldsDictionary) := by
  by_cases hi : i = .sysRdst
  · subst hi; exact .inl ⟨_, rfl⟩
  · rw [exec_eq_perform _ _ hi]
    cases hf : s.faulted
    · cases hc : commandOf i s with
      | ok u => exact .inl ⟨_, perform_ok hf u⟩
      | err e => exact .inl ⟨_, perform_err hf e⟩
      | violation v => exact .inl ⟨_, perform_violation hf v⟩
      | stuck g =>
        obtain ⟨rfl, h⟩ := commandOf_stuck hc
        exact .inr ⟨by simp [perform, hf, settle], h⟩
    · exact .inl ⟨_, perform_faulted hf _⟩

/-! ### Results fit their ports -/

/-- A shorter sequence fits where a longer one does. -/
theorem holds_mono {c : Option Nat} {a b : Nat} (h : Caps.holds c b = true) (hab : a ≤ b) :
    Caps.holds c a = true := by
  cases c
  · rfl
  · simp [Caps.holds] at *; omega

/-- A byte port holds the bytes of any vector a bit port holds (00_scope.md R6). -/
theorem holds_by_of_bv (c : Caps) {a b : Nat} (h : Caps.holds (Config.clampCaps c).bv b = true)
    (hab : a ≤ b / 8) : Caps.holds (Config.clampCaps c).by_ a = true := by
  obtain ⟨_ | bv, _ | y, w⟩ := c <;> simp_all [Caps.holds, Config.clampCaps]
  omega

/-- Every byte port holds 32 bytes (00_scope.md R6). -/
theorem holds_by_of_le (c : Caps) {a : Nat} (h : a ≤ 32) : Caps.holds
    (Config.clampCaps c).by_ a = true := by
  obtain ⟨_ | bv, _ | y, w⟩ := c <;> simp_all [Caps.holds, Config.clampCaps]

/-- Every sentence port holds 2048 words (00_scope.md R6). -/
theorem holds_se_of_le (c : Caps) {a : Nat} (h : a ≤ 2048) : Caps.holds
    (Config.clampCaps c).se a = true := by
  obtain ⟨bv, y, _ | w⟩ := c <;> simp_all [Caps.holds, Config.clampCaps]

/-- If the operands fit their ports, so do the results of a command that comes to Ok. -/
theorem commandOf_fits {i : Instr} {s u : State} (ho : s.operandsFit) (h : commandOf i s = .ok u) :
    u.resultsFit := by
  obtain ⟨ho1, ho2, ho3, ho4⟩ : Caps.holds Config.env.caps.bv s.ops.va.length = true ∧
      Caps.holds Config.env.caps.bv s.ops.vb.length = true ∧
          Caps.holds Config.env.caps.by_ s.ops.by_.length = true ∧
              Caps.holds Config.env.caps.se s.ops.se.length = true := by
    simpa [State.operandsFit, Operands.wellFormed, and_assoc] using ho
  have bvs : ∀ n, n ≤ 264 → Caps.holds Config.env.caps.bv n = true := fun n hn => holds_bv_of_le _ _ hn
  cases i
  case sysRdst => cases h; simp [State.resultsFit, fitsPort]
  case mnI2c => cases h; simp [State.resultsFit, fitsPort, bvs]
  case dictLoad => obtain ⟨_, _, _, rfl⟩ := dictLoad_ok h; simp [State.resultsFit, fitsPort]
  case bvAppend =>
    rcases fitBits_cases (s.ops.va ++ s.ops.vb) with ⟨hh, hp⟩ | ⟨_, hp⟩ <;>
        simp [commandOf, append, hp] at h
    subst h; simpa [State.resultsFit, fitsPort] using hh
  case bvPopf =>
    rcases popFront_cases s.ops.va s.ops.n.toNat with ⟨_, hp⟩ | ⟨_, hp⟩ <;> simp [commandOf, hp] at h
    subst h; simp only [State.resultsFit, fitsPort, writeResults_res, and_true]
    exact ⟨holds_mono ho1 (by simp), holds_mono ho1 (by simp)⟩
  case bvPopb =>
    rcases popBack_cases s.ops.va s.ops.n.toNat with ⟨_, hp⟩ | ⟨_, hp⟩ <;> simp [commandOf, hp] at h
    subst h; simp only [State.resultsFit, fitsPort, writeResults_res, and_true]
    exact ⟨holds_mono ho1 (by simp), holds_mono ho1 (by simp)⟩
  case bvPadl =>
    by_cases hl : s.ops.va.length < s.ops.n.toNat
    · rcases fitBits_cases (zeros (s.ops.n.toNat - s.ops.va.length) ++ s.ops.va)
          with ⟨hh, hp⟩ | ⟨_, hp⟩ <;> simp [commandOf, padLeft, hl, hp] at h
      subst h; simpa [State.resultsFit, fitsPort] using hh
    · simp [commandOf, padLeft, hl] at h
      subst h; simpa [State.resultsFit, fitsPort] using ho1
  case bbB2bits =>
    rcases fitBits_cases (bytesToBits s.ops.by_) with ⟨hh, hp⟩ | ⟨_, hp⟩ <;>
        simp [commandOf, hp] at h
    subst h; simpa [State.resultsFit, fitsPort] using hh
  case bbBits2b =>
    rcases bitsToBytes_cases s.ops.va with ⟨_, hp⟩ | ⟨_, hp⟩ <;> simp [commandOf, hp] at h
    subst h; simp only [State.resultsFit, fitsPort, writeResults_res, and_true, true_and]
    exact holds_by_of_bv _ ho1 (by simp)
  case ckExtract =>
    rcases extract_cases s.ops.by_ s.ops.n.toNat with ⟨_, _, _, hp⟩ | ⟨_, hp⟩ <;> simp [commandOf, hp] at h
    subst h; simp only [State.resultsFit, fitsPort, writeResults_res, and_true]
    exact bvs _ (by simp)
  case ckCompute =>
    simp [commandOf, compute_eq] at h
    subst h; simp only [State.resultsFit, fitsPort, writeResults_res, and_true]
    exact bvs _ (by simp)
  case ckSign =>
    rcases fitBits_cases (signedBits s.ops.by_) with ⟨hh, hp⟩ | ⟨_, hp⟩ <;>
      (simp only [commandOf, sign_eq] at h; erw [hp] at h; cases h)
    simpa [State.resultsFit, fitsPort] using hh
  case mnC2i =>
    rcases chunkToIndex_cases s.ops.va with ⟨_, hp⟩ | ⟨_, hp⟩ <;> simp [commandOf, hp] at h
    subst h; simp [State.resultsFit, fitsPort]
  case dictWord =>
    obtain ⟨_, _, h⟩ := Txn.bind_eq_ok.mp h
    obtain ⟨_, _, h⟩ := Txn.bind_eq_ok.mp h
    cases h; simp [State.resultsFit, fitsPort]
  case dictIndex =>
    obtain ⟨_, _, h⟩ := Txn.bind_eq_ok.mp h
    obtain ⟨_, _, h⟩ := Txn.bind_eq_ok.mp h
    cases h; simp [State.resultsFit, fitsPort]
  case mnEncode =>
    obtain ⟨_, _, h⟩ := Txn.bind_eq_ok.mp h
    by_cases hl : s.ops.by_.length ∈ [16, 20, 24, 28, 32]
    · rcases encode_walk s hl with ⟨ws, hw, u', hu, hres⟩ | ⟨_, _, hg⟩
      · rw [hu] at h; cases h; simp only [State.resultsFit, hres, fitsPort, true_and]
        have := sliceWords_length hw
        simp only [List.mem_cons, List.not_mem_nil, or_false] at hl
        exact holds_se_of_le _ (by omega)
      · rw [hg] at h; cases h
    · rw [encode_walk_invalid _ s hl] at h; cases h
  case mnDecode =>
    obtain ⟨_, _, h⟩ := Txn.bind_eq_ok.mp h
    by_cases hl : s.ops.se.length ∈ [12, 15, 18, 21, 24]
    · rcases decode_walk Config.env s hl with ⟨_, hw⟩ | ⟨v, d, _, hv, hd, ⟨_, _, hw⟩ | ⟨_, _, u', hu, hres⟩⟩
      · rw [hw] at h; cases h
      · rw [hw] at h; cases h
      · rw [hu] at h; cases h; simp only [State.resultsFit, hres, fitsPort, true_and, and_true]
        have := congrArg List.length hd
        rw [bytesToBits_length, List.length_take] at this
        simp only [List.mem_cons, List.not_mem_nil, or_false] at hl
        exact holds_by_of_le _ (by omega)
    · rw [decode_walk_count _ s hl] at h; cases h
  all_goals
    obtain ⟨_, _, h⟩ := Txn.bind_eq_ok.mp h
    cases h; simp [State.resultsFit, fitsPort]

/-! ### What a step keeps -/

/-- No command writes an operand port. -/
theorem exec_ops {i : Instr} {s t : State} (h : exec i s = .next t) : t.ops = s.ops := by
  rcases exec_cases h with ⟨_, _, rfl⟩ | ⟨_, ⟨r, _, _, rfl⟩ | ⟨_, h1, h2, h3, rfl⟩ | ⟨e, _, rfl⟩ | ⟨v, _, rfl⟩⟩ <;> rfl

/-- A command on a ready dictionary keeps it, and keeps it ready. -/
theorem exec_of_ready {i : Instr} {s t : State} (hr : s.dictReady = true) (h : exec i s = .next t) :
    t.dictReady = true ∧ t.dict = s.dict := by
  rcases exec_cases h with ⟨_, _, rfl⟩ | ⟨_, ⟨_, _, _, rfl⟩ | ⟨_, h1, _⟩ | ⟨_, _, rfl⟩ | ⟨_, _, rfl⟩⟩
  · exact ⟨hr, rfl⟩
  · exact ⟨hr, rfl⟩
  · rw [hr] at h1; cases h1
  · exact ⟨hr, rfl⟩
  · exact ⟨by simpa using hr, rfl⟩

/-- A command on a faulted engine keeps STATUS and the dictionary. -/
theorem exec_of_faulted {i : Instr} {s t : State} (hf : s.faulted = true) (h : exec i s = .next t) :
    t.status = s.status ∧ t.dict = s.dict := by
  by_cases hi : i = .sysRdst
  · subst hi; cases h; exact ⟨rfl, rfl⟩
  · rw [exec_eq_perform _ _ hi, perform_faulted hf] at h
    cases h; exact ⟨rfl, rfl⟩

/-- A run that answers a next state went through its first event. -/
theorem session_cons_next {e es} {s t : State} (h : session (e :: es) s = .next t) : ∃ u,
    deliver e s = .next u ∧ session es u = .next t := by
  simp only [session] at h
  split at h
  · exact ⟨_, by assumption, h⟩
  · cases h
  · cases h

/-! ### What a transaction depends on -/

/-- What Txn.shows of a transaction outside the engine: results, STATUS, dictionary. -/
def Txn.shows (t : Txn State) : Txn (Results × BitVec 8 × Memory) := t.bind fun u => .ok (u.res,
    u.status, u.dict)

/-- What Txn.shows of an Ok. -/
theorem Txn.shows_ok (u : State) : Txn.shows (.ok u) = .ok (u.res, u.status, u.dict) := rfl

/-- What Txn.shows of a sequence. -/
theorem Txn.shows_bind {α} (t : Txn α) (f : α → Txn State) : Txn.shows
    (t.bind f) = t.bind fun a => Txn.shows (f a) := by
  cases t <;> rfl

/-- Ends of transactions that show the same are observed the same. -/
theorem observable_settle (s u : State) (a b : Txn State) (h : Txn.shows a = Txn.shows b)
    (hst : s.status = u.status) (hd : s.dict = u.dict) :
    observableEnd (settle s a) = observableEnd (settle u b) := by
  cases a <;> cases b <;> simp [Txn.shows] at h
  · obtain ⟨h1, h2, h3⟩ := h
    simp [settle, observableEnd, State.observable, takeOk, endTransaction, h1, h2, h3]
  · subst h; simp [settle, observableEnd, State.observable, takeError, endTransaction, hst, hd]
  · subst h; simp [settle, observableEnd, State.observable, takeFault, endTransaction, State.latchFault, State.dictReady, hst, hd]
  · subst h; rfl

/-- So are commands whose transactions show the same. -/
theorem observable_exec (i : Instr) (s u : State) (h : Txn.shows (commandOf i s) = Txn.shows
    (commandOf i u)) (hst : s.status = u.status) (hd : s.dict = u.dict) :
    observableEnd (exec i s) = observableEnd (exec i u) := by
  by_cases hi : i = .sysRdst
  · subst hi; rw [exec_sysRdst, exec_sysRdst]; exact observable_settle _ _ _ _ h hst hd
  · rw [exec_eq_perform _ _ hi, exec_eq_perform _ _ hi]
    unfold perform
    rw [show s.faulted = u.faulted by simp [State.faulted, hst]]
    split
    · simp [observableEnd, State.observable, refuseLatched, endTransaction, hst, hd]
    · exact observable_settle _ _ _ _ h hst hd

/-- MN.ENCODE depends on BY, STATUS and the dictionary. -/
theorem shows_encode (s u : State) (hby : s.ops.by_ = u.ops.by_) (hst : s.status = u.status)
    (hd : s.dict = u.dict) :
    Txn.shows (commandOf .mnEncode s) = Txn.shows (commandOf .mnEncode u) := by
  simp only [commandOf, encodeCommand, Txn.shows_bind]
  rw [show requireReady s = requireReady u by simp [requireReady, State.dictReady, hst]]
  congr 1; funext _
  by_cases hl : s.ops.by_.length ∈ [16, 20, 24, 28, 32]
  · rcases encode_walk s hl with ⟨ws, hw, v, hv, hres⟩ | ⟨g, hg, hv⟩ <;>
    rcases encode_walk u (hby ▸ hl) with ⟨ws', hw', v', hv', hres'⟩ | ⟨g', hg', hv'⟩ <;> rw [hv, hv']
    · have k := sequencerWalk_keeps hv
      have k' := sequencerWalk_keeps hv'
      rw [← hby, ← hd, hw] at hw'; cases hw'
      simp [Txn.shows, hres, hres', k.status, k'.status, k.dict, k'.dict, hst, hd]
    · rw [← hby, ← hd, hw] at hg'; cases hg'
    · rw [← hby, ← hd, hg] at hw'; cases hw'
    · rw [← hby, ← hd, hg] at hg'; cases hg'; rfl
  · rw [encode_walk_invalid _ s hl, encode_walk_invalid _ u (hby ▸ hl)]

/-- MN.DECODE depends on SE, STATUS and the dictionary. -/
theorem shows_decode (s u : State) (hby : s.ops.se = u.ops.se) (hst : s.status = u.status)
    (hd : s.dict = u.dict) :
    Txn.shows (commandOf .mnDecode s) = Txn.shows (commandOf .mnDecode u) := by
  simp only [commandOf, decodeCommand, Txn.shows_bind]
  rw [show requireReady s = requireReady u by simp [requireReady, State.dictReady, hst]]
  congr 1; funext _
  by_cases hl : s.ops.se.length ∈ [12, 15, 18, 21, 24]
  · rcases decode_walk Config.env s hl with ⟨hj, hv⟩ | ⟨v, d, hj, hl1, hd1, hcase⟩ <;>
    rcases decode_walk Config.env u (hby ▸ hl) with ⟨hj', hv'⟩ | ⟨v', d', hj', hl1', hd1', hcase'⟩
    · rw [hv, hv']
    · rw [← hby, ← hd, hj] at hj'; cases hj'
    · rw [← hby, ← hd, hj] at hj'; cases hj'
    · rw [← hby, ← hd, hj] at hj'; cases hj'
      rw [← hd1] at hd1'
      have hdd : d' = d := by
        have := congrArg bitsToBytes hd1'
        simpa [bitsToBytes_bytesToBits] using this
      subst hdd
      rcases hcase with ⟨h1, h2, hv⟩ | ⟨h1, h2, w, hv, hres⟩ <;> rcases hcase'
          with ⟨h1', h2', hv'⟩ | ⟨h1', h2', w', hv', hres'⟩
      · rw [hv, hv']
      · exact absurd h1' h1
      · exact absurd h1 h1'
      · rw [hv, hv']
        have k := sequencerWalk_keeps hv
        have k' := sequencerWalk_keeps hv'
        simp [Txn.shows, hres, hres', k.status, k'.status, k.dict, k'.dict, hst, hd]
  · rw [decode_walk_count _ s hl, decode_walk_count _ u (hby ▸ hl)]

/-- Every command depends on its listed operand ports, STATUS and the dictionary (10_state.md R11, R20). -/
theorem shows_command (i : Instr) (s u : State) (ho : Operands.listed i s.ops = Operands.listed i u.ops)
    (hst : s.status = u.status) (hd : s.dict = u.dict) :
    Txn.shows (commandOf i s) = Txn.shows (commandOf i u) := by
  have hr : requireReady s = requireReady u := by simp [requireReady, State.dictReady, hst]
  cases i
  case mnEncode => simp [Operands.listed] at ho; exact shows_encode s u ho.2 hst hd
  case mnDecode => simp [Operands.listed] at ho; exact shows_decode s u ho.2 hst hd
  all_goals
    simp [Operands.listed] at ho
    simp [commandOf, dictLoad, dictWord, dictIndex, Txn.shows_bind, Txn.shows_ok, ho, hd, hst, hr,
        readStatus, State.dictReady, State.freason, State.faulted]

/-- Keeping the listed ports twice keeps the listed ports. -/
theorem listed_listed (i : Instr) (p : Operands) : Operands.listed i
    (Operands.listed i p) = Operands.listed i p := by cases i <;> rfl

/-- No step changes a ready dictionary or its readiness (10_state.md R15, R19). -/
theorem step_of_ready {s t : State} (hr : s.dictReady = true) (h : step s = .next t) :
    t.dictReady = true ∧ t.dict = s.dict := by
  rcases step_cases h with ⟨i, hdec, h⟩ | ⟨_, ⟨hf, rfl⟩ | ⟨hf, rfl⟩⟩
  · exact exec_of_ready hr h
  · exact ⟨hr, rfl⟩
  · exact ⟨by simpa using hr, rfl⟩

/-- No step of a faulted engine changes STATUS or the dictionary (60_exceptions.md R114). -/
theorem step_of_faulted {s t : State} (hf : s.faulted = true) (h : step s = .next t) :
    t.status = s.status ∧ t.dict = s.dict := by
  rcases step_cases h with ⟨i, hdec, h⟩ | ⟨_, ⟨hf', rfl⟩ | ⟨hf', rfl⟩⟩
  · exact exec_of_faulted hf h
  · exact ⟨rfl, rfl⟩
  · rw [hf] at hf'; cases hf'

end Sys2Proof.Machine
end

