-- ==== Sys2Proof/Laws/HostPrograms.lean ====
section
/-! SUPPORT. The host's loops of single commands (43_mnemonic.md R93) in closed form. -/

namespace Sys2Proof.Machine

/-- The slicing loop of a host gives the words that MN.ENCODE gives. -/
theorem hostSlice_done (s : State) (hf : s.faulted = false) (hr : s.dictReady = true)
    (hd : s.dict.HoldsDictionary) (k : Nat) (v : Bits) (out : Sentence) (hl : v.length = 11 * k)
    (ws : Sentence) (hw : sliceWords s.dict k v = .ok ws) :
    ∃ t, hostSlice k v out s = .done (out ++ ws) t := by
  induction k generalizing v out s ws with
  | zero => cases hw; exact ⟨s, by simp [hostSlice]⟩
  | succ k ih =>
    obtain ⟨w, hw1, h⟩ := Txn.bind_eq_ok.mp hw
    obtain ⟨rest, hr1, h⟩ := Txn.bind_eq_ok.mp h
    cases h
    have h11 : (v.take 11).length = 11 := by rw [List.length_take]; omega
    have hlt := val_lt (v.take 11)
    rw [h11] at hlt
    generalize hx : numberRn (val (v.take 11)) = x
    have hn : x.toNat = val (v.take 11) := by rw [← hx]; simp [numberRn]; omega
    obtain ⟨t1, ht1, hs1, hd1⟩ := issue_ok (i := .bvPopf) (s := s)
      (p := { noOperands with va := v, n := 11#16 }) (f := readPair) (a := (v.take 11, v.drop 11))
      (by simp) (by simp) hf
      (by
        rcases popFront_cases v 11 with ⟨_, hp⟩ | ⟨h, _⟩
        · simp only [commandOf, present_ops, show (11#16).toNat = 11 from rfl, hp]; rfl
        · omega) rfl
    obtain ⟨t2, ht2, hs2, hd2⟩ := issue_ok (i := .mnC2i) (s := t1)
      (p := { noOperands with va := v.take 11 }) (f := fun r => r.rn) (a := x)
      (by simp) (by simp) (faulted_of_status hs1 hf)
      (by
        rcases chunkToIndex_cases (v.take 11) with ⟨_, hp⟩ | ⟨h, hp⟩
        · simp only [commandOf, present_ops, hp, Txn.bind_ok, hx]; rfl
        · omega) rfl
    have hs2' := hs2.trans hs1
    have hd2' := hd2.trans hd1
    obtain ⟨t3, ht3, hs3, hd3⟩ := issue_ok (i := .dictWord) (s := t2)
      (p := { noOperands with n := x }) (f := fun r => r.rwd) (a := w)
      (by simp) (by simp) (faulted_of_status hs2' hf)
      (u := (t2.present .dictWord { noOperands with n := x }).writeResults { rwd := some w })
      (by simp [commandOf, dictWord, requireReady, ready_of_status hs2' hr, hn, hd2', hw1]) rfl
    have hs3' := hs3.trans hs2'
    have hd3' := hd3.trans hd2'
    obtain ⟨t, ht⟩ := ih t3 (faulted_of_status hs3' hf) (ready_of_status hs3' hr) (hd3' ▸ hd)
      (v.drop 11) (out ++ [w]) (by rw [List.length_drop]; omega) rest (hd3' ▸ hr1)
    refine ⟨t, ?_⟩
    simp only [hostSlice, ht1, HostReply.bind, ht2, ht3, ht]
    simp

/-- The joining loop of a host gives the bits that MN.DECODE joins, or stops at the first absent word. -/
theorem hostJoin_cases (s : State) (hf : s.faulted = false) (hr : s.dictReady = true)
    (hd : s.dict.HoldsDictionary) (ws : Sentence) (v : Bits) (hl : v.length + 11 * ws.length ≤ 264) :
    (∃ v' t, joinChunks s.dict ws = .ok v' ∧ hostJoin ws v s = .done (v ++ v') t ∧
      t.status = s.status ∧ t.dict = s.dict) ∨
    (∃ t, joinChunks s.dict ws = .err .invalidWord ∧ hostJoin ws v s = .failed 3#4 t) := by
  induction ws generalizing s v with
  | nil => exact .inl ⟨[], s, rfl, by simp [hostJoin], rfl, rfl⟩
  | cons w rest ih =>
    simp only [List.length_cons] at hl
    cases hfind : Memory.find s.dict w with
    | none =>
      obtain ⟨t, ht, _⟩ := issue_err (i := .dictIndex) (s := s) (p := { noOperands with wd := w })
        (f := fun r => r.rn) (e := .invalidWord) (by simp) hf
        (by simp [commandOf, dictIndex, requireReady, hr, findEntry, hfind])
      refine .inr ⟨t, by simp [joinChunks, findEntry, hfind], ?_⟩
      simp only [hostJoin, ht, HostReply.bind]
      rfl
    | some idx =>
      have hlt := hd.find_lt hfind
      generalize hx : numberRn idx = x
      have hn : x.toNat = idx := by rw [← hx]; simp [numberRn]; omega
      obtain ⟨t1, ht1, hs1, hd1⟩ := issue_ok (i := .dictIndex) (s := s)
        (p := { noOperands with wd := w }) (f := fun r => r.rn) (a := x) (by simp) (by simp) hf
        (u := (s.present .dictIndex { noOperands with wd := w }).writeResults { rn := some x })
        (by simp [commandOf, dictIndex, requireReady, hr, findEntry, hfind, hx]) rfl
      generalize hc : indexToChunk idx = chunk
      have hcl : chunk.length = 11 := by rw [← hc]; simp
      obtain ⟨t2, ht2, hs2, hd2⟩ := issue_ok (i := .mnI2c) (s := t1)
        (p := { noOperands with n := x }) (f := fun r => r.ra) (a := chunk) (by simp) (by simp)
        (faulted_of_status hs1 hf)
        (u := (t1.present .mnI2c { noOperands with n := x }).writeResults { ra := some chunk })
        (by simp only [commandOf, present_ops, hn, hc]) rfl
      have hs2' := hs2.trans hs1
      have hd2' := hd2.trans hd1
      obtain ⟨t3, ht3, hs3, hd3⟩ := issue_ok (i := .bvAppend) (s := t2)
        (p := { noOperands with va := v, vb := chunk }) (f := fun r => r.ra) (a := v ++ chunk)
        (by simp) (by simp) (faulted_of_status hs2' hf)
        (by
          simp only [commandOf, present_ops, append]
          rw [fitBits_env_of_le (by simp; omega)]
          rfl) rfl
      have hs3' := hs3.trans hs2'
      have hd3' := hd3.trans hd2'
      rcases ih t3 (faulted_of_status hs3' hf) (ready_of_status hs3' hr) (hd3' ▸ hd) (v ++ chunk)
          (by simp; omega) with ⟨v', t, hj, hh, hst, hdt⟩ | ⟨t, hj, hh⟩
      · rw [hd3'] at hj
        refine .inl ⟨chunk ++ v', t, by simp [joinChunks, findEntry, hfind, hj, hc], ?_,
          hst.trans hs3', hdt.trans hd3'⟩
        simp only [hostJoin, ht1, HostReply.bind, ht2, ht3, hh]
        simp
      · rw [hd3'] at hj
        refine .inr ⟨t, by simp [joinChunks, findEntry, hfind, hj], ?_⟩
        simp only [hostJoin, ht1, HostReply.bind, ht2, ht3, hh]

end Sys2Proof.Machine
end

