-- ==== Sys2Proof/Laws/PerInstr.lean ====
section
/-! SUPPORT. The family of statements made per instruction: its encoding. -/

namespace Sys2Proof.Laws.Encoding

/-- The instruction is well-formed, its command byte decodes to it and to nothing else, and the table's
number of that byte reads as it (30_encoding.md R45, R46). -/
def Statement (i : Instr) : Prop :=
  i.wellFormed = true ∧ decode (encode i) = .ok i ∧ (∀ b : Byte, decode b = .ok i → b = encode i) ∧
  decodeTableWord 8 (encode i).toNat = some i

theorem sysRdst : Statement .sysRdst := ⟨rfl, by decide, by decide, by decide⟩
theorem dictLoad : Statement .dictLoad := ⟨rfl, by decide, by decide, by decide⟩
theorem bvAppend : Statement .bvAppend := ⟨rfl, by decide, by decide, by decide⟩
theorem bvPopf : Statement .bvPopf := ⟨rfl, by decide, by decide, by decide⟩
theorem bvPopb : Statement .bvPopb := ⟨rfl, by decide, by decide, by decide⟩
theorem bvPadl : Statement .bvPadl := ⟨rfl, by decide, by decide, by decide⟩
theorem bbB2bits : Statement .bbB2bits := ⟨rfl, by decide, by decide, by decide⟩
theorem bbBits2b : Statement .bbBits2b := ⟨rfl, by decide, by decide, by decide⟩
theorem ckExtract : Statement .ckExtract := ⟨rfl, by decide, by decide, by decide⟩
theorem ckCompute : Statement .ckCompute := ⟨rfl, by decide, by decide, by decide⟩
theorem ckSign : Statement .ckSign := ⟨rfl, by decide, by decide, by decide⟩
theorem ckValidate : Statement .ckValidate := ⟨rfl, by decide, by decide, by decide⟩
theorem mnChklen : Statement .mnChklen := ⟨rfl, by decide, by decide, by decide⟩
theorem mnChkwc : Statement .mnChkwc := ⟨rfl, by decide, by decide, by decide⟩
theorem mnC2i : Statement .mnC2i := ⟨rfl, by decide, by decide, by decide⟩
theorem mnI2c : Statement .mnI2c := ⟨rfl, by decide, by decide, by decide⟩
theorem dictWord : Statement .dictWord := ⟨rfl, by decide, by decide, by decide⟩
theorem dictIndex : Statement .dictIndex := ⟨rfl, by decide, by decide, by decide⟩
theorem mnEncode : Statement .mnEncode := ⟨rfl, by decide, by decide, by decide⟩
theorem mnDecode : Statement .mnDecode := ⟨rfl, by decide, by decide, by decide⟩

end Sys2Proof.Laws.Encoding
end

