-- ==== Sys2Proof/Tests/Slice0.lean ====
section
/-! SUPPORT. The model's own tests. Every expected value is taken from spec/95_test_vectors.md (the
vector is named) or worked out by hand from the rule named; none comes from the model. At the end, for
every statement with hypotheses, witnesses that meet them together. -/

namespace Sys2Proof.Tests

open Sys2Proof.Machine

/-! ## Fixtures (95_test_vectors.md section 1) -/

/-- A BitVector literal, position 0 first. -/
def b (l : List Nat) : Bits := l.map fun x => x == 1

/-- F-DICT: the word of an index. The vectors spell it as w and four digits; here words are numbers
(log 1), and the word of index i is the one numbered i. -/
def W (i : Nat) : Word := .ofIndex (i % 2048) (Nat.mod_lt _ (by decide))

/-- F-CONST: first byte c, then 31 bytes 0xEE. -/
def digestK (first : Byte) : Digest := (Vector.replicate 32 0xEE#8).set 0 first

/-- F-DIG: first byte 0xA5 plus the sum of the bytes. -/
def digestT (d : ByteSeq) : Digest := digestK (d.foldl (· + ·) 0xA5#8)

/-- The test parameters: F-DIG and the smallest legal capacities. -/
def testEnv : Env := { digest := digestT, caps := { bv := some 264, by_ := some 33, se := some 2048 } }

/-- The entropy of T1. -/
def t1 : ByteSeq :=
  [0xf0#8, 0xff#8, 0x00#8, 0xb5#8, 0x51#8, 0x80#8, 0xdf#8, 0xfa#8,
   0x34#8, 0x65#8, 0x4e#8, 0x3f#8, 0x90#8, 0x48#8, 0xa4#8, 0x00#8]

/-- The indices of M1. -/
def m1 : List Nat := [1927, 1984, 362, 1304, 111, 2024, 1676, 1358, 508, 1042, 328, 5]

/-- The entries of F-DICT that the vectors below touch. -/
def someEntries : Memory :=
  [0, 4, 5, 111, 328, 362, 508, 903, 1042, 1304, 1358, 1676, 1927, 1984, 2024, 2037, 2047].map
    fun i => (i, W i)

/-- An engine after reset with operands `p` on its ports. -/
def fresh (p : Operands) : State := { State.reset with ops := p }

/-- An engine with those entries, DICT_READY = 1, and operands `p` on its ports. -/
def stocked (p : Operands) : State := { State.reset with ops := p, status := 0x01#8, dict := someEntries }

/-- What a host sees of an end: ST, the results, STATUS. -/
def seen (o : Host.Outcome State Fault Refusal) : Option (BitVec 4 × Results × BitVec 8) :=
  match o with
  | .next t => some (t.st, t.res, t.status)
  | .fault _ => none
  | .refused _ => none

/-- The results of a composite command under the test parameters. -/
def results (t : Txn State) : Txn Results := t.bind fun u => .ok u.res

/-! ## Decoding: command bytes written out from 30_encoding.md R45, R46 -/

theorem test_decode_system : decode (BitVec.ofNat 8 0b00000001) = .ok .dictLoad := by decide
theorem test_decode_bitvector : decode (BitVec.ofNat 8 0b00010010) = .ok .bvPopb := by decide
theorem test_decode_bytebit : decode (BitVec.ofNat 8 0b00100001) = .ok .bbBits2b := by decide
theorem test_decode_checksum : decode (BitVec.ofNat 8 0b00110011) = .ok .ckValidate := by decide
theorem test_decode_mnemonic : decode (BitVec.ofNat 8 0b01000110) = .ok .mnEncode := by decide
theorem test_decode_lookup : decode (BitVec.ofNat 8 0b01000101) = .ok .dictIndex := by decide
theorem test_decode_every_command :
    [0x00, 0x01, 0x10, 0x11, 0x12, 0x13, 0x20, 0x21, 0x30, 0x31, 0x32, 0x33,
     0x40, 0x41, 0x42, 0x43, 0x44, 0x45, 0x46, 0x47].map (decodeTableWord 8) =
    [Instr.sysRdst, .dictLoad, .bvAppend, .bvPopf, .bvPopb, .bvPadl, .bbB2bits, .bbBits2b,
     .ckExtract, .ckCompute, .ckSign, .ckValidate, .mnChklen, .mnChkwc, .mnC2i, .mnI2c,
     .dictWord, .dictIndex, .mnEncode, .mnDecode].map some := by decide
/-- 236 of the 256 bytes are illegal (30_encoding.md R52). -/
theorem test_decode_counts_illegal :
    ((List.range 256).filter fun x => decodeTableWord 8 x == none).length = 236 := by decide +kernel
theorem test_decode_illegal_edges :
    [0x02, 0x0F, 0x14, 0x1F, 0x22, 0x2F, 0x34, 0x3F, 0x48, 0x4F, 0x50, 0xFF].map (decodeTableWord 8) =
    List.replicate 12 none := by decide
/-- Every row of the table runs as the first command after reset. -/
theorem test_every_row_runs_first :
    ∀ i : Fin 20, (seen (step (State.reset.withFetchWord 8
      ([0x00, 0x01, 0x10, 0x11, 0x12, 0x13, 0x20, 0x21, 0x30, 0x31, 0x32, 0x33, 0x40, 0x41, 0x42, 0x43,
        0x44, 0x45, 0x46, 0x47][i])))).isSome = true := by decide

/-! ## Well-formedness: an ill-formed term for each check (00_scope.md R6; 30_encoding.md R51) -/

theorem test_caps_unbounded : Caps.wellFormed { bv := none, by_ := none, se := none } = true := by decide
theorem test_caps_smallest : Caps.wellFormed testEnv.caps = true := by decide
theorem test_caps_bv_small : Caps.wellFormed { bv := some 263, by_ := some 33, se := none } = false := by
  decide
theorem test_caps_by_small : Caps.wellFormed { bv := some 264, by_ := some 31, se := none } = false := by
  decide
theorem test_caps_by_below_bv : Caps.wellFormed { bv := some 272, by_ := some 33, se := none } = false := by
  decide
theorem test_caps_by_bounded : Caps.wellFormed { bv := none, by_ := some 65535, se := none } = false := by
  decide
theorem test_caps_se_small : Caps.wellFormed { bv := none, by_ := none, se := some 2047 } = false := by
  decide
theorem test_caps_too_large : Caps.wellFormed { bv := some 65536, by_ := none, se := none } = false := by
  decide
theorem test_operands_fit : Operands.wellFormed testEnv.caps { noOperands with va := zeros 264 } = true := by
  decide +kernel
theorem test_operands_va : Operands.wellFormed testEnv.caps { noOperands with va := zeros 265 } = false := by
  decide +kernel
theorem test_operands_vb : Operands.wellFormed testEnv.caps { noOperands with vb := zeros 265 } = false := by
  decide +kernel
theorem test_operands_by :
    Operands.wellFormed testEnv.caps { noOperands with by_ := List.replicate 34 0#8 } = false := by decide
theorem test_operands_se :
    Operands.wellFormed testEnv.caps { noOperands with se := List.replicate 2049 (W 0) } = false := by decide +kernel

/-! ## BV -/

/-- V1. -/
theorem test_append : seen (exec .bvAppend (fresh { noOperands with va := b [1, 0, 1, 1], vb := b [0, 0, 1] })) =
    some (0#4, { ra := some (b [1, 0, 1, 1, 0, 0, 1]) }, 0x00#8) := by decide
/-- V7: 200 + 65 bits under a capacity of 264. -/
theorem test_append_overflow : append testEnv (zeros 200) (zeros 65) = .violation .capacityOverflow := by
  decide +kernel
/-- V8. -/
theorem test_pop_front :
    seen (exec .bvPopf (fresh { noOperands with
      va := b [1, 1, 1, 1, 0, 0, 0, 0, 1, 1, 1, 1, 1, 1, 1, 1], n := 11#16 })) =
    some (0#4, { ra := some (b [1, 1, 1, 1, 0, 0, 0, 0, 1, 1, 1]), rb := some (b [1, 1, 1, 1, 1]) }, 0x00#8) := by
  decide
/-- V11, on an engine whose dictionary is loaded (44_dictionary_system.md R100 example). -/
theorem test_pop_front_too_many :
    seen (exec .bvPopf (stocked { noOperands with va := b [1, 0, 1, 1, 0], n := 6#16 })) =
    some (15#4, {}, 0x13#8) := by decide
/-- V15. -/
theorem test_pop_back :
    seen (exec .bvPopb (fresh { noOperands with va := b [1, 0, 1, 0, 1, 0, 1, 1, 1, 1], n := 4#16 })) =
    some (0#4, { ra := some (b [1, 0, 1, 0, 1, 0]), rb := some (b [1, 1, 1, 1]) }, 0x00#8) := by decide
/-- V18. -/
theorem test_pop_back_too_many :
    seen (exec .bvPopb (fresh { noOperands with va := b [1, 0, 1, 1, 0], n := 6#16 })) =
    some (15#4, {}, 0x12#8) := by decide
/-- V26. -/
theorem test_pad_left : seen (exec .bvPadl (fresh { noOperands with va := b [1], n := 8#16 })) =
    some (0#4, { ra := some (b [0, 0, 0, 0, 0, 0, 0, 1]) }, 0x00#8) := by decide
/-- V22. -/
theorem test_pad_left_longer :
    seen (exec .bvPadl (fresh { noOperands with va := b [1, 1, 1, 1, 0, 0, 0, 0, 1, 1, 1], n := 8#16 })) =
    some (0#4, { ra := some (b [1, 1, 1, 1, 0, 0, 0, 0, 1, 1, 1]) }, 0x00#8) := by decide

/-! ## BB -/

/-- B2. -/
theorem test_bytes_to_bits : seen (exec .bbB2bits (fresh { noOperands with by_ := [0x01#8, 0x80#8] })) =
    some (0#4, { ra := some (b [0, 0, 0, 0, 0, 0, 0, 1, 1, 0, 0, 0, 0, 0, 0, 0]) }, 0x00#8) := by decide
/-- B7. -/
theorem test_bits_to_bytes :
    seen (exec .bbBits2b (fresh { noOperands with va := b [0, 1, 0, 0, 1, 1, 1, 1, 0, 0, 0, 0, 0, 0, 0, 1] })) =
    some (0#4, { rby := some [0x4f#8, 0x01#8] }, 0x00#8) := by decide
/-- B9. -/
theorem test_bits_to_bytes_odd :
    seen (exec .bbBits2b (fresh { noOperands with va := b [0, 1, 0, 0, 1, 1, 1] })) =
    some (15#4, {}, 0x22#8) := by decide

/-! ## CK -/

/-- 95_test_vectors.md 3.3, c = 0xb6, k = 4: the last four bits, not the first. -/
theorem test_extract :
    seen (exec .ckExtract (fresh { noOperands with by_ := (digestK 0xb6#8).toList, n := 4#16 })) =
    some (0#4, { ra := some (b [0, 1, 1, 0]) }, 0x00#8) := by decide
/-- X2: 31 bytes. -/
theorem test_extract_short :
    seen (exec .ckExtract (fresh { noOperands with by_ := List.replicate 31 0x4f#8, n := 4#16 })) =
    some (15#4, {}, 0x92#8) := by decide
/-- K1. -/
theorem test_compute : compute testEnv t1 = .ok (b [0, 1, 0, 1]) := by decide
/-- K4: 36 bytes give 8 bits, not 9. -/
theorem test_compute_long : compute testEnv (List.replicate 36 0#8) = .ok (b [1, 0, 1, 0, 0, 1, 0, 1]) := by
  decide
/-- K6: the first byte and the checksum at their ends. -/
theorem test_sign :
    ((sign testEnv t1).bind fun v => .ok (v.length, v.take 8, v.drop 128)) =
    .ok (132, b [1, 1, 1, 1, 0, 0, 0, 0], b [0, 1, 0, 1]) := by decide +kernel
/-- K16, K17. -/
theorem test_validate : validate testEnv (zeros 32 ++ b [1]) = .ok () ∧
    validate testEnv (zeros 33) = .err .invalidChecksum := by decide +kernel
/-- K15, K24: the width is tested before whole bytes. -/
theorem test_validate_order : validate testEnv (zeros 32) = .violation .notByteMultiple ∧
    validate testEnv (zeros 289) = .violation .checksumWidth := by decide +kernel

/-! ## MN -/

/-- 95_test_vectors.md 3.5. -/
theorem test_check_length : ((List.range 66).filter fun k =>
    decide (checkLength (List.replicate k 0#8) = .ok ())) = [16, 20, 24, 28, 32] := by decide +kernel
/-- 95_test_vectors.md 3.5, on the port: T2. -/
theorem test_check_length_29 :
    seen (exec .mnChklen (fresh { noOperands with by_ := List.replicate 29 0#8 })) =
    some (1#4, {}, 0x00#8) := by decide
/-- 95_test_vectors.md 3.5: also 3, 27, 93, which the source's formula alone would pass. -/
theorem test_check_word_count : ((List.range 97).filter fun k =>
    decide (checkWordCount (List.replicate k (W 0)) = .ok ())) = [12, 15, 18, 21, 24] := by decide +kernel
/-- T3, on the port. -/
theorem test_check_word_count_13 :
    seen (exec .mnChkwc (fresh { noOperands with se := List.replicate 13 (W 7) })) =
    some (2#4, {}, 0x00#8) := by decide
/-- S1. -/
theorem test_chunk_to_index :
    seen (exec .mnC2i (fresh { noOperands with va := b [1, 1, 1, 1, 0, 0, 0, 0, 1, 1, 1] })) =
    some (0#4, { rn := some 1927#16 }, 0x00#8) := by decide
/-- S9: 17 bits. -/
theorem test_chunk_too_wide :
    seen (exec .mnC2i (fresh { noOperands with va := zeros 16 ++ b [1] })) =
    some (15#4, {}, 0x72#8) := by decide
/-- 43_mnemonic.md R88 example: 2063 = 2048 + 15. -/
theorem test_index_to_chunk : seen (exec .mnI2c (fresh { noOperands with n := 2063#16 })) =
    some (0#4, { ra := some (b [0, 0, 0, 0, 0, 0, 0, 1, 1, 1, 1]) }, 0x00#8) := by decide
/-- M1. -/
theorem test_encode :
    results (encodeCommand testEnv (stocked { noOperands with by_ := t1 })) =
    .ok { rse := some (m1.map W) } := by decide +kernel
/-- T2: 29 bytes. -/
theorem test_encode_29 :
    seen (exec .mnEncode (stocked { noOperands with by_ := List.replicate 29 0#8 })) =
    some (1#4, {}, 0x01#8) := by decide
/-- M1 decoded, and M12: the last word W(4). -/
theorem test_decode :
    results (decodeCommand testEnv (stocked { noOperands with se := m1.map W })) =
      .ok { rby := some t1 } ∧
    results (decodeCommand testEnv (stocked { noOperands with se := (m1.dropLast ++ [4]).map W })) =
      .err .invalidChecksum := by decide +kernel
/-- M11: the word that carries the checksum is unknown. M23: no dictionary, 13 words. -/
theorem test_decode_order :
    seen (exec .mnDecode (stocked { noOperands with se := (m1.dropLast.map W) ++ [W 7] })) =
      some (3#4, {}, 0x01#8) ∧
    seen (exec .mnDecode (fresh { noOperands with se := List.replicate 13 (W 0) })) =
      some (15#4, {}, 0x32#8) := by decide

/-! ## DICT and SYS -/

/-- Y10. -/
theorem test_dict_word : seen (exec .dictWord (stocked { noOperands with n := 1927#16 })) =
    some (0#4, { rwd := some (W 1927) }, 0x01#8) := by decide
/-- Y11. -/
theorem test_dict_word_2048 : seen (exec .dictWord (stocked { noOperands with n := 2048#16 })) =
    some (15#4, {}, 0x13#8) := by decide
/-- Y14. -/
theorem test_dict_index : seen (exec .dictIndex (stocked { noOperands with wd := W 328 })) =
    some (0#4, { rn := some 328#16 }, 0x01#8) := by decide
/-- Y15: a word that no entry of `someEntries` holds. -/
theorem test_dict_index_absent : seen (exec .dictIndex (stocked { noOperands with wd := W 7 })) =
    some (3#4, {}, 0x01#8) := by decide
/-- Y7. -/
theorem test_dict_load_empty : seen (exec .dictLoad (fresh noOperands)) = some (5#4, {}, 0x00#8) := by decide
/-- Y9. -/
theorem test_dict_load_again : seen (exec .dictLoad (stocked noOperands)) = some (15#4, {}, 0x43#8) := by
  decide
/-- P4 steps 4 to 6: faulted with reason 1, a legal and an illegal byte are refused, SYS.RDST runs. -/
theorem test_faulted_engine :
    seen (step { stocked { noOperands with cmd := 0x13#8 } with status := 0x13#8 }) =
      some (15#4, {}, 0x13#8) ∧
    seen (step { stocked { noOperands with cmd := 0xFF#8 } with status := 0x13#8 }) =
      some (15#4, {}, 0x13#8) ∧
    seen (step { stocked { noOperands with cmd := 0x00#8 } with status := 0x13#8 }) =
      some (0#4, { rn := some 0x0013#16 }, 0x13#8) := by decide
/-- Y19. -/
theorem test_illegal_byte : seen (step (fresh { noOperands with cmd := 0x48#8 })) =
    some (15#4, {}, 0x52#8) := by decide

/-! ## Witnesses: for each statement with hypotheses, states and operands that meet them -/

theorem W_injective {i j : Nat} (hi : i < 2048) (hj : j < 2048) (h : W i = W j) : i = j := by
  have := congrArg Word.number h
  simp only [W, Word.ofIndex] at this
  omega

theorem exists_dictT : ∃ l : Sentence, l = (List.range 2048).map W := ⟨_, rfl⟩

/-- The whole of F-DICT, named without its value so that nothing evaluates its 2048 words. -/
noncomputable def dictT : Sentence := exists_dictT.choose

theorem dictT_length : dictT.length = 2048 := by
  rw [dictT, exists_dictT.choose_spec, List.length_map, List.length_range]

theorem dictT_nodup : dictT.Nodup := by
  rw [dictT, exists_dictT.choose_spec]
  refine List.Nodup.map_on ?_ List.nodup_range
  intro i hi j hj h
  simp only [List.mem_range] at hi hj
  exact W_injective hi hj h

theorem dictT_getElem? (i : Nat) (h : i < 2048) : dictT[i]? = some (W i) := by
  rw [dictT, exists_dictT.choose_spec, List.getElem?_map, List.getElem?_range h, Option.map_some]

theorem exists_memoryT : ∃ m : Memory, m = Memory.writeAll [] 0 dictT := ⟨_, rfl⟩

/-- The memory after a load of F-DICT into an empty one. -/
noncomputable def memoryT : Memory := exists_memoryT.choose

theorem memoryT_eq : memoryT = Memory.writeAll [] 0 dictT := exists_memoryT.choose_spec

theorem memoryT_holds : memoryT.HoldsDictionary := by
  rw [memoryT_eq]
  exact Memory.writeAll_holdsDictionary _ dictT_length dictT_nodup

theorem memoryT_wf : Memory.wf memoryT = true := by
  rw [memoryT_eq]
  exact Memory.wf_writeAll _ _ _ (by rw [dictT_length]) rfl

theorem memoryT_read (i : Nat) (h : i < 2048) : Memory.read memoryT i = some (W i) := by
  rw [memoryT_eq, Memory.read_writeAll, dictT_length]
  simp [h, dictT_getElem?]

/-- An engine with F-DICT loaded and operands `p` on its ports. -/
noncomputable def loaded (p : Operands) : State :=
  { State.reset with ops := p, status := 0x01#8, dict := memoryT }

theorem loaded_faulted (p : Operands) : (loaded p).faulted = false := by
  show statusFault 0x01#8 = false
  decide
theorem loaded_ready (p : Operands) : (loaded p).dictReady = true := by
  show statusReady 0x01#8 = true
  decide
theorem fresh_faulted (p : Operands) : (fresh p).faulted = false := by
  show statusFault 0x00#8 = false
  decide
theorem fresh_ready (p : Operands) : (fresh p).dictReady = false := by
  show statusReady 0x00#8 = false
  decide

theorem loaded_inv (p : Operands) : (loaded p).Inv where
  idle := rfl
  status := by show legalStatus 0x01#8 = true; decide
  memory := memoryT_wf
  loaded := fun _ => memoryT_holds
  unloaded := fun h => by rw [loaded_ready] at h; cases h

theorem stocked_faulted (p : Operands) : (stocked p).faulted = false := by
  show statusFault 0x01#8 = false
  decide
theorem stocked_ready (p : Operands) : (stocked p).dictReady = true := by
  show statusReady 0x01#8 = true
  decide
theorem someEntries_wf : Memory.wf someEntries = true := by decide
theorem someEntries_lack : someEntries.Lacks (W 7) := (Memory.lacks_iff someEntries_wf _).mpr (by decide)

/-- A word outside F-DICT, where the word type has one. -/
theorem memoryT_lacks (h : Config.isWord 2048 = true) : memoryT.Lacks ⟨2048, h⟩ := by
  intro i hr
  by_cases hi : i < 2048
  · rw [memoryT_read i hi] at hr
    have := congrArg Word.number (Option.some.inj hr)
    simp only [W, Word.ofIndex] at this
    omega
  · rw [memoryT_eq, Memory.read_writeAll, dictT_length] at hr
    simp [hi, Memory.read] at hr

/-- A faulted engine that holds F-DICT, its reason IndexOutOfRange. -/
noncomputable def broken (p : Operands) : State := { loaded p with status := 0x13#8 }

theorem broken_faulted (p : Operands) : (broken p).faulted = true := by
  show statusFault 0x13#8 = true
  decide

theorem witness_decodeEncodeAgree :
    ∃ (i : Instr) (x : Byte), i.wellFormed = true ∧ decode x = .ok i := ⟨.mnDecode, 0x47#8, rfl, by decide⟩

theorem witness_stepRunsDecodedCommand :
    ∃ (s : State) (i : Instr), i.wellFormed = true ∧ decode s.ops.cmd = .ok i :=
  ⟨fresh { noOperands with cmd := 0x47#8 }, .mnDecode, rfl, by decide⟩

/-- Both edges of the illegal ranges on an engine that is not faulted. -/
theorem witness_illegalByte :
    ∃ s u : State, s.faulted = false ∧ s.ops.cmd = 0x02#8 ∧ u.faulted = false ∧ u.ops.cmd = 0xFF#8 ∧
      decode s.ops.cmd = .error .illegalCommand ∧ decode u.ops.cmd = .error .illegalCommand :=
  ⟨fresh { noOperands with cmd := 0x02#8 }, fresh { noOperands with cmd := 0xFF#8 },
    fresh_faulted _, rfl, fresh_faulted _, rfl, by decide, by decide⟩

theorem witness_latchRefuses : ∃ s : State, s.faulted = true ∧ s.ops.cmd ≠ 0x00#8 :=
  ⟨broken { noOperands with cmd := 0xFF#8 }, broken_faulted _, by show 0xFF#8 ≠ 0x00#8; decide⟩

theorem witness_latchReads : ∃ s : State, s.faulted = true ∧ s.ops.cmd = 0x00#8 :=
  ⟨broken noOperands, broken_faulted _, rfl⟩

theorem witness_dictLoad_ok :
    ∃ s : State, s.faulted = false ∧ s.dictReady = false ∧ s.ops.se.length = 2048 ∧
      ∀ i j, i < j → j < 2048 → s.ops.se[i]? ≠ s.ops.se[j]? :=
  ⟨fresh { noOperands with se := dictT }, fresh_faulted _, fresh_ready _, dictT_length,
    (nodup_iff_getElem?_ne dictT dictT_length).mp dictT_nodup⟩

/-- One word too few; and 2048 words of which the first and the last are equal. -/
theorem witness_dictLoad_invalid :
    (∃ s : State, s.faulted = false ∧ s.dictReady = false ∧ s.ops.se.length = 2047) ∧
    (∃ s : State, s.faulted = false ∧ s.dictReady = false ∧ s.ops.se.length = 2048 ∧
      ∃ i j, i < j ∧ j < 2048 ∧ s.ops.se[i]? = s.ops.se[j]?) :=
  ⟨⟨fresh { noOperands with se := List.replicate 2047 (W 0) }, fresh_faulted _, fresh_ready _,
      List.length_replicate⟩,
    ⟨fresh { noOperands with se := List.replicate 2048 (W 0) }, fresh_faulted _, fresh_ready _,
      List.length_replicate, 0, 2047, by decide, by decide, by
        show (List.replicate 2048 (W 0))[0]? = (List.replicate 2048 (W 0))[2047]?
        rw [List.getElem?_replicate, List.getElem?_replicate, if_pos (by decide), if_pos (by decide)]⟩⟩

theorem witness_dictLoad_again : ∃ s : State, s.faulted = false ∧ s.dictReady = true :=
  ⟨loaded noOperands, loaded_faulted _, loaded_ready _⟩

/-- The first and the last index, and the first index out of range. -/
theorem witness_dictWord :
    (∃ (s : State) (w : Word), s.faulted = false ∧ s.dictReady = true ∧ s.ops.n.toNat = 0 ∧
      Memory.read s.dict s.ops.n.toNat = some w) ∧
    (∃ (s : State) (w : Word), s.faulted = false ∧ s.dictReady = true ∧ s.ops.n.toNat = 2047 ∧
      Memory.read s.dict s.ops.n.toNat = some w) ∧
    (∃ s : State, s.faulted = false ∧ s.dictReady = true ∧ s.ops.n.toNat = 2048) :=
  ⟨⟨loaded noOperands, W 0, loaded_faulted _, loaded_ready _, rfl, memoryT_read 0 (by decide)⟩,
    ⟨loaded { noOperands with n := 2047#16 }, W 2047, loaded_faulted _, loaded_ready _, rfl,
      memoryT_read 2047 (by decide)⟩,
    ⟨loaded { noOperands with n := 2048#16 }, loaded_faulted _, loaded_ready _, rfl⟩⟩

theorem witness_dictWord_unready : ∃ s : State, s.faulted = false ∧ s.dictReady = false :=
  ⟨fresh noOperands, fresh_faulted _, fresh_ready _⟩

theorem witness_dictIndex :
    ∃ (s : State) (idx : Nat), s.faulted = false ∧ s.dictReady = true ∧ s.dict.HoldsDictionary ∧
      Memory.read s.dict idx = some s.ops.wd ∧ idx = 2047 :=
  ⟨loaded { noOperands with wd := W 2047 }, 2047, loaded_faulted _, loaded_ready _, memoryT_holds,
    memoryT_read 2047 (by decide), rfl⟩

/-- In canonical form and not complete, so that a word is absent under every choice of the word type;
and complete, where the word type has more than 2048 words. -/
theorem witness_dictIndex_absent :
    (∃ s : State, s.faulted = false ∧ s.dictReady = true ∧ s.dict.Lacks s.ops.wd ∧
      Memory.wf s.dict = true) ∧
    (∀ h : Config.isWord 2048 = true, ∃ s : State, s.Inv ∧ s.faulted = false ∧ s.dictReady = true ∧
      s.dict.Lacks s.ops.wd ∧ s.ops.wd = ⟨2048, h⟩) :=
  ⟨⟨stocked { noOperands with wd := W 7 }, stocked_faulted _, stocked_ready _, someEntries_lack,
      someEntries_wf⟩,
    fun h => ⟨loaded { noOperands with wd := ⟨2048, h⟩ }, loaded_inv _, loaded_faulted _, loaded_ready _,
      memoryT_lacks h, rfl⟩⟩

theorem witness_readiness : ∃ (s : State) (i : Instr), i ∈ [Instr.dictWord, .dictIndex, .mnEncode, .mnDecode] ∧
    s.faulted = false ∧ s.dictReady = false :=
  ⟨fresh noOperands, .mnDecode, by decide, fresh_faulted _, fresh_ready _⟩

theorem witness_indexOfWord :
    ∃ (s : State) (n : BitVec 16), s.Inv ∧ s.faulted = false ∧ s.dictReady = true ∧ n.toNat = 2047 :=
  ⟨loaded noOperands, 2047#16, loaded_inv _, loaded_faulted _, loaded_ready _, rfl⟩

/-- The only hypothesis of the statements of BV.APPEND, BB.B2BITS, CK.COMPUTE, CK.SIGN, MN.I2C. -/
theorem witness_notFaulted : ∃ s : State, s.faulted = false := ⟨fresh noOperands, fresh_faulted _⟩

/-- Pops and pad: N equal to the length, and one more. -/
theorem witness_pops :
    (∃ s : State, s.faulted = false ∧ s.ops.n.toNat = 1 ∧ s.ops.va.length = 1) ∧
    (∃ s : State, s.faulted = false ∧ s.ops.va.length = 1 ∧ s.ops.n.toNat = 2) :=
  ⟨⟨fresh { noOperands with va := [true], n := 1#16 }, fresh_faulted _, rfl, rfl⟩,
    ⟨fresh { noOperands with va := [true], n := 2#16 }, fresh_faulted _, rfl, rfl⟩⟩

theorem witness_append_done :
    ∃ (s t : State) (x y v : Bits), s.faulted = false ∧ x.length ≤ 65535 ∧ y.length ≤ 65535 ∧
      issue .bvAppend { noOperands with va := x, vb := y } (fun r => r.ra) s = .done v t := by
  obtain ⟨t, h, _⟩ := issue_ok (i := .bvAppend) (s := fresh noOperands)
    (p := { noOperands with va := [true], vb := [false] }) (f := fun r => r.ra) (a := [true, false])
    (by simp) (by simp) (fresh_faulted _)
    (by simp only [commandOf, present_ops, append]; rw [fitBits_env_of_le (by simp)]; rfl) rfl
  exact ⟨_, t, [true], [false], _, fresh_faulted _, by simp, by simp, h⟩

theorem witness_padLeft_done :
    ∃ (s t : State) (v p : Bits) (n : BitVec 16), s.faulted = false ∧ v.length ≤ n.toNat ∧
      issue .bvPadl { noOperands with va := v, n := n } (fun r => r.ra) s = .done p t := by
  obtain ⟨t, h, _⟩ := issue_ok (i := .bvPadl) (s := fresh noOperands)
    (p := { noOperands with va := [true], n := 2#16 }) (f := fun r => r.ra) (a := [false, true])
    (by simp) (by simp) (fresh_faulted _)
    (by
      simp only [commandOf, present_ops]
      rcases padLeft_cases [true] 2 with ⟨r, hr, rfl⟩ | ⟨_, h2, _⟩
      · simp only [show (2#16).toNat = 2 from rfl, hr]; rfl
      · rw [Config.env, holds_bv_of_le _ _ (by decide)] at h2; cases h2) rfl
  exact ⟨_, t, [true], _, 2#16, fresh_faulted _, by simp, h⟩

theorem witness_smallResults :
    ∃ s : State, s.faulted = false ∧ s.ops.va.length + s.ops.vb.length = 264 ∧ s.ops.n.toNat = 264 ∧
      8 * s.ops.by_.length ≤ 264 ∧ 8 * s.ops.by_.length + min (s.ops.by_.length / 4) 8 = 264 :=
  ⟨fresh { noOperands with va := zeros 132, vb := zeros 132, n := 264#16, by_ := List.replicate 32 0#8 },
    fresh_faulted _, by simp [fresh], rfl, by simp [fresh], by simp [fresh]⟩

theorem witness_bitsToBytes :
    (∃ s : State, s.faulted = false ∧ s.ops.va.length % 8 = 0 ∧ s.ops.va.length = 8) ∧
    (∃ s : State, s.faulted = false ∧ s.ops.va.length % 8 ≠ 0 ∧ s.ops.va.length = 9) :=
  ⟨⟨fresh { noOperands with va := zeros 8 }, fresh_faulted _, rfl, rfl⟩,
    ⟨fresh { noOperands with va := zeros 9 }, fresh_faulted _, by simp [fresh], rfl⟩⟩

theorem bytesToBits_done (s : State) (hf : s.faulted = false) (d : ByteSeq) (h : d.length ≤ 33) :
    ∃ t, issue .bbB2bits { noOperands with by_ := d } (fun r => r.ra) s = .done (bytesToBits d) t ∧
      t.status = s.status := by
  obtain ⟨t, ht, hst, _⟩ := issue_ok (i := .bbB2bits) (s := s) (p := { noOperands with by_ := d })
    (f := fun r => r.ra) (a := bytesToBits d) (by simp) (by simp) hf
    (by simp only [commandOf, present_ops]; rw [fitBits_env_of_le (by simp; omega)]; rfl) rfl
  exact ⟨t, ht, hst⟩

/-- Three conversions in a row, and one back. -/
theorem witness_transcoders :
    (∃ (s t u w : State) (d e : ByteSeq) (v x y : Bits), s.faulted = false ∧
      issue .bbB2bits { noOperands with by_ := d } (fun r => r.ra) s = .done v t ∧
      issue .bbB2bits { noOperands with by_ := e } (fun r => r.ra) t = .done x u ∧
      issue .bbB2bits { noOperands with by_ := d ++ e } (fun r => r.ra) u = .done y w) ∧
    (∃ (s t : State) (d : ByteSeq) (v : Bits), s.faulted = false ∧
      Caps.holds Config.env.caps.bv v.length = true ∧
      issue .bbBits2b { noOperands with va := v } (fun r => r.rby) s = .done d t) := by
  constructor
  · have hf := fresh_faulted noOperands
    obtain ⟨t, ht, h1⟩ := bytesToBits_done _ hf [0xf0#8] (by decide)
    have hf1 := faulted_of_status h1 hf
    obtain ⟨u, hu, h2⟩ := bytesToBits_done _ hf1 [0x0f#8] (by decide)
    obtain ⟨w, hw, _⟩ := bytesToBits_done _ (faulted_of_status h2 hf1) ([0xf0#8] ++ [0x0f#8]) (by decide)
    exact ⟨_, t, u, w, _, _, _, _, _, hf, ht, hu, hw⟩
  · obtain ⟨t, ht, _⟩ := issue_ok (i := .bbBits2b) (s := fresh noOperands)
      (p := { noOperands with va := bytesToBits [0xf0#8] }) (f := fun r => r.rby) (a := [0xf0#8])
      (by simp) (by simp) (fresh_faulted _)
      (by simp only [commandOf, present_ops, bitsToBytes_bytesToBits]; rfl) rfl
    exact ⟨_, t, _, _, fresh_faulted _, holds_bv_of_le _ _ (by decide), ht⟩

theorem witness_extract :
    (∃ s : State, s.faulted = false ∧ s.ops.by_.length = 32) ∧
    (∃ s : State, s.faulted = false ∧ s.ops.by_.length = 31) :=
  ⟨⟨fresh { noOperands with by_ := List.replicate 32 0#8 }, fresh_faulted _, rfl⟩,
    ⟨fresh { noOperands with by_ := List.replicate 31 0#8 }, fresh_faulted _, rfl⟩⟩

/-- 288 bits; 287 bits, not whole bytes; 264 bits. -/
theorem witness_validate :
    (∃ s : State, s.faulted = false ∧ 8 < s.ops.va.length / 32 ∧ s.ops.va.length = 288) ∧
    (∃ s : State, s.faulted = false ∧ s.ops.va.length / 32 ≤ 8 ∧
      (s.ops.va.length - s.ops.va.length / 32) % 8 ≠ 0 ∧ s.ops.va.length = 287) ∧
    (∃ s : State, s.faulted = false ∧ s.ops.va.length / 32 ≤ 8 ∧
      (s.ops.va.length - s.ops.va.length / 32) % 8 = 0 ∧ s.ops.va.length = 264) :=
  ⟨⟨fresh { noOperands with va := zeros 288 }, fresh_faulted _, by simp [fresh], by simp [fresh]⟩,
    ⟨fresh { noOperands with va := zeros 287 }, fresh_faulted _, by simp [fresh], by simp [fresh],
      by simp [fresh]⟩,
    ⟨fresh { noOperands with va := zeros 264 }, fresh_faulted _, by simp [fresh], by simp [fresh],
      by simp [fresh]⟩⟩

theorem sign_done (s : State) (hf : s.faulted = false) (e : ByteSeq)
    (h : Caps.holds Config.env.caps.bv (signedBits e).length = true) :
    ∃ t, issue .ckSign { noOperands with by_ := e } (fun r => r.ra) s = .done (signedBits e) t := by
  obtain ⟨t, ht, _⟩ := issue_ok (i := .ckSign) (s := s) (p := { noOperands with by_ := e })
    (f := fun r => r.ra) (a := signedBits e) (by simp) (by simp) hf
    (by simp only [commandOf, present_ops, sign_eq]; erw [fitBits_of_holds h]; rfl) rfl
  exact ⟨t, ht⟩

/-- CK.SIGN of 32 bytes ends Ok under every legal capacity; of 35 bytes where BV_CAP allows 288 bits. -/
theorem witness_signed :
    ∃ (s t : State) (e : ByteSeq) (v : Bits), s.faulted = false ∧ e.length ≤ 34 ∧
      issue .ckSign { noOperands with by_ := e } (fun r => r.ra) s = .done v t := by
  have hl : (List.replicate 32 0#8).length = 32 := List.length_replicate
  obtain ⟨t, ht⟩ := sign_done (fresh noOperands) (fresh_faulted _) (List.replicate 32 0#8)
    (holds_bv_of_le _ _ (by rw [signedBits_length, hl]; decide))
  exact ⟨_, t, _, _, fresh_faulted _, by rw [hl]; decide, ht⟩

theorem witness_signed_long (h : Caps.holds Config.env.caps.bv 288 = true) :
    ∃ (s t : State) (e : ByteSeq) (v : Bits), s.faulted = false ∧ 35 ≤ e.length ∧
      issue .ckSign { noOperands with by_ := e } (fun r => r.ra) s = .done v t := by
  have hl : (List.replicate 35 0#8).length = 35 := List.length_replicate
  obtain ⟨t, ht⟩ := sign_done (fresh noOperands) (fresh_faulted _) (List.replicate 35 0#8)
    (by rw [signedBits_length, hl]; exact h)
  exact ⟨_, t, _, _, fresh_faulted _, by rw [hl], ht⟩

/-- A vector of 33 bits that validates: its last data bit is at 31, its checksum bit at 32. -/
theorem witness_flip :
    ∃ (s t : State) (x y : Bool), s.faulted = false ∧ exec .ckValidate s = .next t ∧ t.st = 0#4 ∧
      s.ops.va.length - s.ops.va.length / 32 = 32 ∧ s.ops.va[32]? = some x ∧ s.ops.va[31]? = some y := by
  have hl : (signedBits (List.replicate 4 0#8)).length = 33 := by
    rw [signedBits_length, List.length_replicate]; decide
  obtain ⟨t, h, hend⟩ := exec_ends_ok (i := .ckValidate) (r := {})
    (s := fresh { noOperands with va := signedBits (List.replicate 4 0#8) }) (by simp) (fresh_faulted _)
    (by
      simp only [commandOf]
      erw [validate_signedBits (List.replicate 4 0#8) (by simp)]
      rfl)
  refine ⟨_, t, _, _, fresh_faulted _, h, hend.st, ?_,
    List.getElem?_eq_getElem (i := 32) (by show 32 < (signedBits _).length; omega),
    List.getElem?_eq_getElem (i := 31) (by show 31 < (signedBits _).length; omega)⟩
  show (signedBits _).length - (signedBits _).length / 32 = 32
  omega

theorem witness_checkLength :
    (∃ s : State, s.faulted = false ∧ s.ops.by_.length ∈ [16, 20, 24, 28, 32]) ∧
    (∃ s : State, s.faulted = false ∧ s.ops.by_.length ∉ [16, 20, 24, 28, 32]) :=
  ⟨⟨fresh { noOperands with by_ := List.replicate 32 0#8 }, fresh_faulted _, by simp [fresh]⟩,
    ⟨fresh { noOperands with by_ := List.replicate 36 0#8 }, fresh_faulted _, by simp [fresh]⟩⟩

theorem witness_checkWordCount :
    (∃ s : State, s.faulted = false ∧ s.ops.se.length ∈ [12, 15, 18, 21, 24]) ∧
    (∃ s : State, s.faulted = false ∧ s.ops.se.length ∉ [12, 15, 18, 21, 24]) :=
  ⟨⟨fresh { noOperands with se := List.replicate 24 (W 0) }, fresh_faulted _, by simp [fresh]⟩,
    ⟨fresh { noOperands with se := List.replicate 27 (W 0) }, fresh_faulted _, by simp [fresh]⟩⟩

theorem witness_chunkToIndex :
    (∃ s : State, s.faulted = false ∧ s.ops.va.length = 16) ∧
    (∃ s : State, s.faulted = false ∧ s.ops.va.length = 17) :=
  ⟨⟨fresh { noOperands with va := zeros 16 }, fresh_faulted _, by simp [fresh]⟩,
    ⟨fresh { noOperands with va := zeros 17 }, fresh_faulted _, by simp [fresh]⟩⟩

theorem witness_slicer : ∃ (s : State) (x : Bits), s.faulted = false ∧ x.length = 11 :=
  ⟨fresh noOperands, zeros 11, fresh_faulted _, by simp⟩

theorem witness_encode :
    (∃ s : State, s.faulted = false ∧ s.dictReady = true ∧ s.dict.HoldsDictionary ∧
      s.ops.by_.length ∈ [16, 20, 24, 28, 32]) ∧
    (∃ s : State, s.faulted = false ∧ s.dictReady = true ∧ s.ops.by_.length ∉ [16, 20, 24, 28, 32]) :=
  ⟨⟨loaded { noOperands with by_ := List.replicate 16 0#8 }, loaded_faulted _, loaded_ready _,
      memoryT_holds, by simp [loaded]⟩,
    ⟨loaded { noOperands with by_ := List.replicate 29 0#8 }, loaded_faulted _, loaded_ready _,
      by simp [loaded]⟩⟩

theorem not_lacks_W (i : Nat) (h : i < 2048) : ¬ memoryT.Lacks (W i) :=
  fun hl => hl i (memoryT_read i h)

theorem witness_decode :
    (∃ s : State, s.faulted = false ∧ s.dictReady = true ∧ s.dict.HoldsDictionary ∧
      s.ops.se.length ∈ [12, 15, 18, 21, 24] ∧ ∀ w ∈ s.ops.se, ¬ s.dict.Lacks w) ∧
    (∃ (s : State) (w : Word), s.faulted = false ∧ s.dictReady = true ∧
      s.ops.se.length ∈ [12, 15, 18, 21, 24] ∧ Memory.wf s.dict = true ∧ w ∈ s.ops.se ∧ s.dict.Lacks w) ∧
    (∃ s : State, s.faulted = false ∧ s.dictReady = true ∧ s.ops.se.length ∉ [12, 15, 18, 21, 24]) :=
  ⟨⟨loaded { noOperands with se := List.replicate 12 (W 0) }, loaded_faulted _, loaded_ready _,
      memoryT_holds, by simp [loaded],
      fun w hw => by rw [List.eq_of_mem_replicate hw]; exact not_lacks_W 0 (by decide)⟩,
    ⟨stocked { noOperands with se := List.replicate 12 (W 7) }, W 7, stocked_faulted _, stocked_ready _,
      by simp [stocked], someEntries_wf, by simp [stocked], someEntries_lack⟩,
    ⟨loaded { noOperands with se := List.replicate 13 (W 0) }, loaded_faulted _, loaded_ready _,
      by simp [loaded]⟩⟩

theorem witness_roundTrip :
    ∃ (s : State) (e : ByteSeq), s.Inv ∧ s.faulted = false ∧ s.dictReady = true ∧
      e.length ∈ [16, 20, 24, 28, 32] :=
  ⟨loaded noOperands, List.replicate 32 0#8, loaded_inv _, loaded_faulted _, loaded_ready _, by simp⟩

/-- A sentence that MN.DECODE accepts, whatever the digest: the words of some signed bits. -/
theorem witness_roundTrip_converse :
    ∃ (s t : State) (ws : Sentence) (e : ByteSeq), s.Inv ∧ s.faulted = false ∧ s.dictReady = true ∧
      issue .mnDecode { noOperands with se := ws } (fun r => r.rby) s = .done e t := by
  have hz : (List.replicate 16 0#8).length = 16 := List.length_replicate
  obtain ⟨ws, hw, hl⟩ := sliceWords_ok memoryT_holds 12 (signedBits (List.replicate 16 0#8))
  have hj := joinChunks_sliceWords memoryT_holds (by rw [signedBits_length, hz]; decide) hw
  obtain ⟨u, hu, hres⟩ := commandOf_decode_ok (e := List.replicate 16 0#8)
    (s := (loaded noOperands).present .mnDecode { noOperands with se := ws })
    (loaded_ready noOperands) (by rw [hz]; decide) (by rw [present_ops]; show ws.length ∈ _; rw [hl]; decide) hj
  obtain ⟨t, ht, _⟩ := issue_ok (i := .mnDecode) (f := fun r => r.rby) (a := List.replicate 16 0#8)
    (by simp) (by simp) (loaded_faulted _) hu (by rw [hres])
  exact ⟨_, t, ws, _, loaded_inv _, loaded_faulted _, loaded_ready _, ht⟩

/-- Under every choice of the word type; and on a loaded engine of the invariant, where the word type has
more than 2048 words. -/
theorem witness_roundTrip_unknown :
    (∃ (s : State) (ws : Sentence) (w : Word), Memory.wf s.dict = true ∧ s.faulted = false ∧
      s.dictReady = true ∧ ws.length ∈ [12, 15, 18, 21, 24] ∧ w ∈ ws ∧ s.dict.Lacks w) ∧
    (Config.isWord 2048 = true → ∃ (s : State) (ws : Sentence) (w : Word), s.Inv ∧ s.faulted = false ∧
      s.dictReady = true ∧ ws.length ∈ [12, 15, 18, 21, 24] ∧ w ∈ ws ∧ s.dict.Lacks w) :=
  ⟨⟨stocked noOperands, List.replicate 24 (W 7), W 7, someEntries_wf, stocked_faulted _, stocked_ready _,
      by simp, by simp, someEntries_lack⟩,
    fun h => ⟨loaded noOperands, List.replicate 24 ⟨2048, h⟩, ⟨2048, h⟩, loaded_inv _, loaded_faulted _,
      loaded_ready _, by simp, by simp, memoryT_lacks h⟩⟩

theorem witness_composites : ∃ s : State, s.Inv ∧ s.faulted = false ∧ s.dictReady = true :=
  ⟨loaded noOperands, loaded_inv _, loaded_faulted _, loaded_ready _⟩

theorem witness_checksumParts :
    ∃ (s : State) (e : ByteSeq) (v : Bits), s.faulted = false ∧ e.length = 65535 ∧ v.length = 287 :=
  ⟨fresh noOperands, List.replicate 65535 0#8, zeros 287, fresh_faulted _, List.length_replicate, by simp⟩

/-- A step from a state that meets the invariant: SYS.RDST on a loaded engine. -/
theorem witness_step :
    ∃ s t : State, s.Inv ∧ s.dictReady = true ∧ step s = .next t :=
  ⟨loaded noOperands, _, loaded_inv _, loaded_ready _, step_of_decode (i := .sysRdst) (by decide)⟩

theorem step_illegal {s : State} (h : decode s.ops.cmd = .error .illegalCommand) :
    step s = performIllegal s := by simp [step, portCmd, h]

theorem session_one {s t : State} {p : Operands} (h : deliver (.present p) s = .next t) :
    session ([p].map HostEvent.present) s = .next t := by
  simp only [List.map, session, h]

/-- A step that ends in a failure and changes STATUS: an illegal byte. -/
theorem witness_failure :
    ∃ s t : State, step s = .next t ∧ t.st ≠ 0#4 ∧ t.faulted ≠ s.faulted := by
  have h := step_illegal (s := fresh { noOperands with cmd := 0xFF#8 }) (show decode 0xFF#8 = _ by decide)
  rw [performIllegal, perform_violation (fresh_faulted _)] at h
  exact ⟨_, _, h, by simp, by simp [fresh_faulted]⟩

/-- A step that sets DICT_READY. -/
theorem witness_load :
    ∃ s t : State, step s = .next t ∧ t.dictReady ≠ s.dictReady := by
  have h := step_of_decode (i := .dictLoad) (s := fresh { noOperands with cmd := 0x01#8, se := dictT })
    (show decode 0x01#8 = _ by decide)
  rw [exec_eq_perform _ _ (by simp)] at h
  simp only [commandOf] at h
  have hl := dictLoad_of_valid (s := fresh { noOperands with cmd := 0x01#8, se := dictT }) (fresh_ready _)
    dictT_length dictT_nodup
  rw [hl, perform_ok (fresh_faulted _)] at h
  exact ⟨_, _, h, by simp [fresh_ready]⟩

theorem witness_results :
    ∃ s t : State, s.operandsFit ∧ step s = .next t := by
  have hbv : Caps.holds Config.env.caps.bv 0 = true := holds_bv_of_le _ _ (by decide)
  have hby : Caps.holds Config.env.caps.by_ 0 = true := holds_by_of_le _ (by decide)
  have hse : Caps.holds Config.env.caps.se 0 = true := holds_se_of_le _ (by decide)
  refine ⟨fresh noOperands, _, ?_, step_of_decode (i := .sysRdst) (by decide)⟩
  simp [State.operandsFit, Operands.wellFormed, fresh, noOperands, hbv, hby, hse]

/-- BV.APPEND whose result has exactly the smallest legal BV_CAP. -/
theorem witness_fullLength :
    ∃ (s : State) (i : Instr), s.operandsFit ∧ s.faulted = false ∧ fullLength i s.ops = some 264 := by
  have hbv : Caps.holds Config.env.caps.bv 132 = true := holds_bv_of_le _ _ (by decide)
  have hby : Caps.holds Config.env.caps.by_ 0 = true := holds_by_of_le _ (by decide)
  have hse : Caps.holds Config.env.caps.se 0 = true := holds_se_of_le _ (by decide)
  refine ⟨fresh { noOperands with va := zeros 132, vb := zeros 132 }, .bvAppend, ?_, fresh_faulted _, ?_⟩
  · simp [State.operandsFit, Operands.wellFormed, fresh, noOperands, zeros_length, hbv, hby, hse]
  · simp [fullLength, fresh]

/-- Two engines alike in what counts and different in the rest. -/
theorem witness_inputsOnly :
    ∃ s u : State, s.ops = u.ops ∧ s.status = u.status ∧ s.dict = u.dict ∧ s.st ≠ u.st ∧ s.res ≠ u.res :=
  ⟨fresh noOperands, { fresh noOperands with st := 5#4, res := { rn := some 7#16 } }, rfl, rfl, rfl,
    by decide, by decide⟩

theorem witness_outcomes :
    ∃ (i : Instr) (s t : State), exec i s = .next t ∧ (i ≠ .sysRdst → s.faulted = false) ∧
      i ≠ .dictLoad := by
  have h : exec .mnI2c (fresh noOperands) = _ := exec_eq_perform _ _ (by simp)
  simp only [commandOf, perform_ok (fresh_faulted _)] at h
  exact ⟨_, _, _, h, fun _ => fresh_faulted _, by decide⟩

theorem witness_sticky :
    ∃ (ps : List Operands) (s t : State), s.faulted = true ∧ ps.length = 1 ∧
      session (ps.map HostEvent.present) s = .next t := by
  have h := step_illegal (s := broken { noOperands with cmd := 0xFF#8 }) (show decode 0xFF#8 = _ by decide)
  rw [performIllegal, perform_faulted (broken_faulted _)] at h
  exact ⟨_, broken noOperands, _, broken_faulted _, rfl, session_one (p := { noOperands with cmd := 0xFF#8 }) h⟩

theorem witness_immutable :
    ∃ (ps : List Operands) (s t : State), s.dictReady = true ∧ ps.length = 1 ∧
      session (ps.map HostEvent.present) s = .next t := by
  have h := step_of_decode (i := .sysRdst) (s := loaded noOperands) (show decode 0x00#8 = _ by decide)
  rw [exec_sysRdst] at h
  exact ⟨_, loaded noOperands, _, loaded_ready _, rfl, session_one (p := noOperands) h⟩

theorem witness_boot : ∃ l : Sentence, l.length = 2048 ∧ l.Nodup := ⟨dictT, dictT_length, dictT_nodup⟩

end Sys2Proof.Tests
end

namespace Sys2Proof.Machine

/-! ## The outcome depends on the inputs only (10_state.md R20) -/

/-- A byte that names no command is answered by the illegal-command path (30_encoding.md R52). -/
theorem step_of_decode_error {s : State} {r : Reject} (h : decode s.ops.cmd = .error r) :
    step s = performIllegal s := by
  simp [step, h]

/-- The refusal while faulted shows STATUS and the dictionary as they were, and nothing of the past. -/
theorem observable_refuseLatched (s : State) :
    (refuseLatched s).observable = (stFaulted, {}, s.status, s.dict) := rfl

/-- An illegal byte ends alike on engines that agree on STATUS and the dictionary: both test the same
latch, then both come to the same violation. -/
theorem observable_performIllegal {s u : State} (hst : s.status = u.status) (hd : s.dict = u.dict) :
    observableEnd (performIllegal s) = observableEnd (performIllegal u) := by
  have hlatch : s.faulted = u.faulted := by simp only [State.faulted, hst]
  unfold performIllegal perform
  rw [hlatch]
  cases u.faulted with
  | true => simp [observableEnd, observable_refuseLatched, hst, hd]
  | false => exact observable_settle s u (.violation .illegalCommand) (.violation .illegalCommand) rfl hst hd

/-- Settles O41. Engines with equal operand ports decode the same byte. A command's transaction shows
the same on both (`shows_command`), and equal transactions are observed alike whatever ST, the
results, PH, the scratch and the counter were; an illegal byte looks at STATUS alone. -/
theorem outcomeDependsOnInputsOnly : Obligations.OutcomeDependsOnInputsOnly := by
  intro s u hops hst hd
  cases hdec : decode u.ops.cmd with
  | ok i =>
    have hshows : Txn.shows (commandOf i s) = Txn.shows (commandOf i u) :=
      shows_command i s u (by rw [hops]) hst hd
    rw [step_of_decode hdec, step_of_decode (hops ▸ hdec)]
    exact observable_exec i s u hshows hst hd
  | error r =>
    rw [step_of_decode_error hdec, step_of_decode_error (hops ▸ hdec)]
    exact observable_performIllegal hst hd

end Sys2Proof.Machine

namespace Sys2Proof.Machine

/-! ## The BitVector commands (40_bitvector.md R60 to R63) -/

/-- A command whose one result is `v` on RA ends Ok with the whole of `v` if BV_CAP holds it, and in
CapacityOverflow if not; nothing is truncated (30_encoding.md R51). -/
theorem exec_fitBits_ends {i : Instr} {s : State} {v : Bits} (hi : i ≠ .sysRdst) (hf : s.faulted = false)
    (h : commandOf i s = (fitBits Config.env v).bind fun r => .ok (s.writeResults { ra := some r })) :
    ∃ t, exec i s = .next t ∧
      if Caps.holds Config.env.caps.bv v.length = true then EndsOk s t { ra := some v }
      else EndsFault s t .capacityOverflow := by
  rcases fitBits_cases v with ⟨hfits, hv⟩ | ⟨hover, hv⟩
  · rw [hv, Txn.bind_ok] at h
    simpa [hfits] using exec_ends_ok hi hf h
  · rw [hv, Txn.bind_violation] at h
    simpa [hover] using exec_ends_fault hi hf h

theorem popFront_of_le {v : Bits} {n : Nat} (h : n ≤ v.length) :
    popFront v n = .ok (v.take n, v.drop n) :=
  ((popFront_cases v n).resolve_right fun hlt => hlt.1.not_ge h).2

theorem popFront_of_lt {v : Bits} {n : Nat} (h : v.length < n) :
    popFront v n = .violation .indexOutOfRange :=
  ((popFront_cases v n).resolve_left fun hle => hle.1.not_gt h).2

theorem popBack_of_le {v : Bits} {n : Nat} (h : n ≤ v.length) :
    popBack v n = .ok (v.take (v.length - n), v.drop (v.length - n)) :=
  ((popBack_cases v n).resolve_right fun hlt => hlt.1.not_ge h).2

theorem popBack_of_lt {v : Bits} {n : Nat} (h : v.length < n) :
    popBack v n = .violation .indexOutOfRange :=
  ((popBack_cases v n).resolve_left fun hle => hle.1.not_gt h).2

/-- PADL never truncates: a vector that has reached the target comes back as it is. -/
theorem padLeft_of_le {env : Env} {v : Bits} {target : Nat} (h : target ≤ v.length) :
    padLeft env v target = .ok v := by
  simp [padLeft, Nat.not_lt.mpr h]

theorem padLeft_of_lt {env : Env} {v : Bits} {target : Nat} (h : v.length < target) :
    padLeft env v target = fitBits env (zeros (target - v.length) ++ v) := by
  simp [padLeft, h]

/-- Settles O12. The command is `fitBits` of VA ++ VB, whose length is the sum of the two. -/
theorem appendConcatenates : Obligations.AppendConcatenates := by
  refine ⟨decode_encode .bvAppend, fun s hf => ?_⟩
  have hends := exec_fitBits_ends (i := .bvAppend) (v := s.ops.va ++ s.ops.vb) (by decide) hf rfl
  rwa [List.length_append] at hends

/-- Settles O13. RA and RB are the vector taken and dropped at N, which is within it. -/
theorem popFrontSplits : Obligations.PopFrontSplits := by
  refine ⟨decode_encode .bvPopf, fun s hf hle => ?_, fun s hf hlt => ?_⟩
  · obtain ⟨t, hexec, hok⟩ := exec_ends_ok (i := .bvPopf) (by decide) hf
      (by rw [commandOf, popFront_of_le hle, Txn.bind_ok])
    exact ⟨t, _, _, hexec, hok, List.take_append_drop _ _, List.length_take_of_le hle⟩
  · exact exec_ends_fault (by decide) hf (by rw [commandOf, popFront_of_lt hlt, Txn.bind_violation])

/-- Settles O14. RA and RB are the vector cut at length - N, so that N bits stand behind the cut. -/
theorem popBackSplits : Obligations.PopBackSplits := by
  refine ⟨decode_encode .bvPopb, fun s hf hle => ?_, fun s hf hlt => ?_⟩
  · obtain ⟨t, hexec, hok⟩ := exec_ends_ok (i := .bvPopb) (by decide) hf
      (by rw [commandOf, popBack_of_le hle, Txn.bind_ok])
    exact ⟨t, _, _, hexec, hok, List.take_append_drop _ _, by rw [List.length_drop, Nat.sub_sub_self hle]⟩
  · exact exec_ends_fault (by decide) hf (by rw [commandOf, popBack_of_lt hlt, Txn.bind_violation])

/-- Settles O15. Below the target the command is `fitBits` of the zeros and VA, whose length is the
target itself; from the target on it is VA. -/
theorem padLeftPrependsZeros : Obligations.PadLeftPrependsZeros := by
  refine ⟨decode_encode .bvPadl, fun s hf hle => ?_, fun s hf hlt => ?_⟩
  · exact exec_ends_ok (by decide) hf (by rw [commandOf, padLeft_of_le hle, Txn.bind_ok])
  · have hends := exec_fitBits_ends (i := .bvPadl) (by decide) hf (by rw [commandOf, padLeft_of_lt hlt])
    rwa [List.length_append, zeros_length, Nat.sub_add_cancel hlt.le] at hends

end Sys2Proof.Machine

namespace Sys2Proof.Machine

/-! ## The byte transcoders (41_bytebit.md R70 to R72) -/

theorem bitsToBytes_of_whole {v : Bits} (h : v.length % 8 = 0) :
    bitsToBytes v = .ok (octets (v.length / 8) v) :=
  ((bitsToBytes_cases v).resolve_right fun hodd => hodd.1 h).2

theorem bitsToBytes_of_odd {v : Bits} (h : v.length % 8 ≠ 0) :
    bitsToBytes v = .violation .notByteMultiple :=
  ((bitsToBytes_cases v).resolve_left fun hwhole => h hwhole.1).2

/-- Settles O18. The command is `fitBits` of the bytes' bits, eight for every byte. -/
theorem bytesToBitsMsbFirst : Obligations.BytesToBitsMsbFirst := by
  refine ⟨decode_encode .bbB2bits, fun s hf => ?_⟩
  obtain ⟨t, hexec, hends⟩ :=
    exec_fitBits_ends (i := .bbB2bits) (v := bytesToBits s.ops.by_) (by decide) hf rfl
  rw [bytesToBits_length] at hends
  refine ⟨t, hexec, ?_⟩
  split at hends
  case isTrue hfits => rw [if_pos hfits]; exact ⟨_, hends, bytesToBits_isBitsOf _⟩
  case isFalse hover => rwa [if_neg hover]

/-- Settles O19. Whole bytes come back as the octets of VA, whose bits are VA; no other length gives
any. -/
theorem bitsToBytesWholeBytes : Obligations.BitsToBytesWholeBytes := by
  refine ⟨decode_encode .bbBits2b, fun s hf hwhole => ?_, fun s hf hodd => ?_⟩
  · have hbytes := bitsToBytes_of_whole hwhole
    obtain ⟨t, hexec, hok⟩ := exec_ends_ok (i := .bbBits2b) (by decide) hf
      (by rw [commandOf, hbytes, Txn.bind_ok])
    exact ⟨t, _, hexec, hok, bitsToBytes_isBitsOf hbytes⟩
  · exact exec_ends_fault (by decide) hf (by rw [commandOf, bitsToBytes_of_odd hodd, Txn.bind_violation])

/-! ### The transcoders as the host issues them -/

/-- `fitBits` truncates nothing: what it gives is what it was given (30_encoding.md R51). -/
theorem eq_of_fitBits_ok {v r : Bits} (h : fitBits Config.env v = .ok r) : r = v := by
  rcases fitBits_cases v with ⟨_, hv⟩ | ⟨_, hv⟩
  · rw [hv] at h; cases h; rfl
  · rw [hv] at h; cases h

/-- Bytes whose bits fit BV_CAP are answered with those bits. -/
theorem issue_bbB2bits_of_holds {s : State} {d : ByteSeq} (hf : s.faulted = false)
    (h : Caps.holds Config.env.caps.bv (bytesToBits d).length = true) :
    ∃ t, issue .bbB2bits { noOperands with by_ := d } (fun r => r.ra) s = .done (bytesToBits d) t ∧
      t.status = s.status := by
  obtain ⟨t, hissue, hstatus, -⟩ := issue_ok (i := .bbB2bits) (p := { noOperands with by_ := d })
    (f := fun r => r.ra) (by decide) (by decide) hf
    (by rw [commandOf, present_ops, fitBits_of_holds h, Txn.bind_ok]) rfl
  exact ⟨t, hissue, hstatus⟩

/-- An answer of BB.B2BITS is the bits of its bytes. -/
theorem issue_bbB2bits_done {s t : State} {d : ByteSeq} {v : Bits} (hf : s.faulted = false)
    (h : issue .bbB2bits { noOperands with by_ := d } (fun r => r.ra) s = .done v t) :
    v = bytesToBits d ∧ t.faulted = false := by
  obtain ⟨u, hcommand, hra, hstatus, -⟩ := issue_done (by decide) (by decide) hf h
  obtain ⟨r, hfit, hu⟩ := Txn.bind_eq_ok.mp hcommand
  cases hu
  cases hra
  exact ⟨eq_of_fitBits_ok hfit, faulted_of_status hstatus hf⟩

/-- A vector that BITS2B turns into bytes is answered with them. -/
theorem issue_bbBits2b_of_ok {s : State} {v : Bits} {d : ByteSeq} (hf : s.faulted = false)
    (h : bitsToBytes v = .ok d) :
    ∃ t, issue .bbBits2b { noOperands with va := v } (fun r => r.rby) s = .done d t := by
  obtain ⟨t, hissue, -⟩ := issue_ok (i := .bbBits2b) (p := { noOperands with va := v })
    (f := fun r => r.rby) (by decide) (by decide) hf
    (by rw [commandOf, present_ops, h, Txn.bind_ok]) rfl
  exact ⟨t, hissue⟩

/-- An answer of BB.BITS2B is what BITS2B gives. -/
theorem issue_bbBits2b_done {s t : State} {v : Bits} {d : ByteSeq} (hf : s.faulted = false)
    (h : issue .bbBits2b { noOperands with va := v } (fun r => r.rby) s = .done d t) :
    bitsToBytes v = .ok d ∧ t.faulted = false := by
  obtain ⟨u, hcommand, hrby, hstatus, -⟩ := issue_done (by decide) (by decide) hf h
  obtain ⟨r, hbytes, hu⟩ := Txn.bind_eq_ok.mp hcommand
  cases hu
  cases hrby
  exact ⟨hbytes, faulted_of_status hstatus hf⟩

/-- A chunk of at most 16 bits is answered with its value (43_mnemonic.md R87). -/
theorem issue_mnC2i_of_le {s : State} {c : Bits} (hf : s.faulted = false) (h : c.length ≤ 16) :
    ∃ t, issue .mnC2i { noOperands with va := c } (fun r => r.rn) s = .done (numberRn (val c)) t := by
  have hvalue := ((chunkToIndex_cases c).resolve_right fun hwide => hwide.1.not_ge h).2
  obtain ⟨t, hissue, -⟩ := issue_ok (i := .mnC2i) (p := { noOperands with va := c })
    (f := fun r => r.rn) (by decide) (by decide) hf
    (by rw [commandOf, present_ops, hvalue, Txn.bind_ok]) rfl
  exact ⟨t, hissue⟩

/-- The bits of one byte are a number of 16 bits, the byte's value (41_bytebit.md R72). -/
theorem numberRn_val_byte (x : Byte) : (numberRn (val (bytesToBits [x]))).toNat = x.toNat := by
  have hval : val (bytesToBits [x]) = x.toNat := by simp
  rw [hval, numberRn, BitVec.toNat_ofNat, Nat.mod_eq_of_lt (by have := x.isLt; omega)]

/-- Settles O20. An answer fixes what its command computed, and an Ok leaves the latch clear, so each
clause comes down to a law of B2BITS and BITS2B: each undoes the other, B2BITS distributes over
concatenation, and the eight bits of a byte have its value. -/
theorem transcodersMutuallyInverse : Obligations.TranscodersMutuallyInverse := by
  refine ⟨fun s t d v hf hv => ?_, fun s t d v hf hfits hd => ?_,
    fun s t u w d e v x y hf hv hx hy => ?_, fun s x hf => ?_⟩
  · obtain ⟨rfl, hft⟩ := issue_bbB2bits_done hf hv
    exact issue_bbBits2b_of_ok hft (bitsToBytes_bytesToBits d)
  · obtain ⟨hbytes, hft⟩ := issue_bbBits2b_done hf hd
    obtain rfl := bytesToBits_of_bitsToBytes hbytes
    obtain ⟨u, hissue, -⟩ := issue_bbB2bits_of_holds hft hfits
    exact ⟨u, hissue⟩
  · obtain ⟨rfl, hft⟩ := issue_bbB2bits_done hf hv
    obtain ⟨rfl, hfu⟩ := issue_bbB2bits_done hft hx
    obtain ⟨rfl, -⟩ := issue_bbB2bits_done hfu hy
    exact bytesToBits_append d e
  · have hlength : (bytesToBits [x]).length = 8 := by simp
    obtain ⟨t, hbits, hstatus⟩ := issue_bbB2bits_of_holds (d := [x]) hf
      (holds_bv_of_le _ _ (by omega))
    obtain ⟨u, hnumber⟩ := issue_mnC2i_of_le (c := bytesToBits [x]) (faulted_of_status hstatus hf)
      (by omega)
    exact ⟨_, _, t, u, hbits, hnumber, numberRn_val_byte x⟩

end Sys2Proof.Machine

namespace Sys2Proof.Machine

/-! ## The checksum commands (42_checksum.md R75 to R80) -/

/-- A command that left ST at OK came to Ok: no error and no fault has that code (30_encoding.md R50). -/
theorem commandOf_ok_of_exec {i : Instr} {s t : State} (hi : i ≠ .sysRdst) (hf : s.faulted = false)
    (hexec : exec i s = .next t) (hst : t.st = 0#4) : ∃ u, commandOf i s = .ok u := by
  rw [exec_eq_perform i s hi] at hexec
  rcases perform_next.mp hexec with ⟨hlatch, -⟩ | ⟨-, ⟨u, hu, -⟩ | ⟨e, -, rfl⟩ | ⟨v, -, rfl⟩⟩
  · rw [hf] at hlatch; cases hlatch
  · exact ⟨u, hu⟩
  · exact absurd hst (errorCode_ne_zero e)
  · exact absurd hst (by simp)

/-! ### Data part and claimed checksum -/

/-- Whole bytes are the bits of some byte sequence. -/
theorem exists_bytesToBits_eq {v : Bits} (h : v.length % 8 = 0) : ∃ d, bytesToBits d = v :=
  ⟨_, bytesToBits_of_bitsToBytes (bitsToBytes_of_whole h)⟩

/-- A vector whose data part is whole bytes is the bits of those bytes and the claimed checksum. -/
theorem exists_bytes_append_claimed {v : Bits} (h : (v.length - v.length / 32) % 8 = 0) :
    ∃ d claimed, bytesToBits d ++ claimed = v ∧ claimed.length = v.length / 32 := by
  obtain ⟨d, hd⟩ := exists_bytesToBits_eq (v := v.take (v.length - v.length / 32))
    (by rwa [List.length_take_of_le (Nat.sub_le _ _)])
  exact ⟨d, v.drop (v.length - v.length / 32), by rw [hd, List.take_append_drop],
    by rw [List.length_drop, Nat.sub_sub_self (Nat.div_le_self _ _)]⟩

/-- In front of the last `len div 32` bits stands the data part. -/
theorem length_data {v data claimed : Bits} (hv : data ++ claimed = v)
    (hclaimed : claimed.length = v.length / 32) : data.length = v.length - v.length / 32 := by
  rw [← hclaimed, ← hv, List.length_append, Nat.add_sub_cancel]

/-- Inverting the bit at a position of a vector gives another vector. -/
theorem set_not_ne {v : Bits} {p : Nat} {b : Bool} (h : v[p]? = some b) : v.set p (!b) ≠ v := by
  intro heq
  have hp : p < v.length := (List.getElem?_eq_some_iff.mp h).1
  rw [← heq, List.getElem?_set_self hp] at h
  simp at h

/-! ### VALIDATE, test by test -/

theorem validate_of_wide {env : Env} {v : Bits} (h : 8 < v.length / 32) :
    validate env v = .violation .checksumWidth :=
  ((validate_cases env v).resolve_right fun hnarrow =>
    (hnarrow.elim And.left And.left).not_gt h).2

theorem validate_of_odd {env : Env} {v : Bits} (hle : v.length / 32 ≤ 8)
    (hodd : (v.length - v.length / 32) % 8 ≠ 0) : validate env v = .violation .notByteMultiple := by
  rcases validate_cases env v with ⟨hwide, -⟩ | ⟨-, -, hv⟩ | ⟨-, hwhole, -⟩
  · exact absurd hwide hle.not_gt
  · exact hv
  · exact absurd hwhole hodd

/-- On the bits of whole bytes and a claimed checksum of the right width, VALIDATE is the comparison. -/
theorem validate_bytes_append {v : Bits} {d : ByteSeq} {claimed : Bits} {k : Nat}
    (hv : bytesToBits d ++ claimed = v) (hclaimed : claimed.length = k) (hk : v.length / 32 = k)
    (hle : k ≤ 8) :
    validate Config.env v =
      require (decide (lastBits (Config.digest d)[0] k = claimed)) .invalidChecksum := by
  subst hv hclaimed
  simp only [validate, hk, hle.not_gt, decide_false, checkNot_false, popBack_append,
    bitsToBytes_bytesToBits, extractDigest, Config.env, Txn.bind_ok]

/-- CK.VALIDATE on such a vector ends Ok if the checksum of the bytes is the claimed one, and in
InvalidChecksum if not (42_checksum.md R78). -/
theorem exec_ckValidate_compares {s : State} {d : ByteSeq} {claimed : Bits} {k : Nat}
    (hf : s.faulted = false) (hva : bytesToBits d ++ claimed = s.ops.va) (hclaimed : claimed.length = k)
    (hk : s.ops.va.length / 32 = k) (hle : k ≤ 8) :
    ∃ t, exec .ckValidate s = .next t ∧
      (lastBits (Config.digest d)[0] k = claimed → EndsOk s t {}) ∧
      (lastBits (Config.digest d)[0] k ≠ claimed → EndsErr s t .invalidChecksum) := by
  have hcompare := validate_bytes_append hva hclaimed hk hle
  by_cases hsum : lastBits (Config.digest d)[0] k = claimed
  · obtain ⟨t, hexec, hok⟩ := exec_ends_ok (i := .ckValidate) (by decide) hf
      (by rw [commandOf, hcompare, decide_eq_true hsum, require_true, Txn.bind_ok])
    exact ⟨t, hexec, fun _ => hok, fun hne => absurd hsum hne⟩
  · obtain ⟨t, hexec, herr⟩ := exec_ends_err (i := .ckValidate) (by decide) hf
      (by rw [commandOf, hcompare, decide_eq_false hsum, require_false, Txn.bind_err])
    exact ⟨t, hexec, fun heq => absurd heq hsum, fun _ => herr⟩

/-- A vector that validated is the bits of whole bytes and their checksum. -/
theorem split_of_ckValidate_ok {s t : State} (hf : s.faulted = false)
    (hexec : exec .ckValidate s = .next t) (hst : t.st = 0#4) :
    ∃ d claimed, bytesToBits d ++ claimed = s.ops.va ∧ claimed.length = s.ops.va.length / 32 ∧
      s.ops.va.length / 32 ≤ 8 ∧ lastBits (Config.digest d)[0] (s.ops.va.length / 32) = claimed := by
  obtain ⟨u, hu⟩ := commandOf_ok_of_exec (by decide) hf hexec hst
  obtain ⟨_, hok, -⟩ := Txn.bind_eq_ok.mp hu
  rcases validate_cases Config.env s.ops.va with ⟨-, hv⟩ | ⟨-, -, hv⟩ | ⟨hle, hwhole, -⟩
  · rw [hv] at hok; cases hok
  · rw [hv] at hok; cases hok
  · obtain ⟨d, claimed, hva, hclaimed⟩ := exists_bytes_append_claimed hwhole
    rw [validate_bytes_append hva hclaimed rfl hle] at hok
    exact ⟨d, claimed, hva, hclaimed, hle, of_decide_eq_true (require_eq_ok.mp hok)⟩

/-! ### SIGN -/

/-- SIGN is the signed bits, if they fit (42_checksum.md R77). -/
theorem sign_env (e : ByteSeq) : sign Config.env e = fitBits Config.env (signedBits e) :=
  sign_eq Config.env e

/-- An answer of CK.SIGN is the signed bits of its bytes. -/
theorem issue_ckSign_done {s t : State} {e : ByteSeq} {v : Bits} (hf : s.faulted = false)
    (h : issue .ckSign { noOperands with by_ := e } (fun r => r.ra) s = .done v t) :
    v = signedBits e ∧ t.faulted = false := by
  obtain ⟨u, hcommand, hra, hstatus, -⟩ := issue_done (by decide) (by decide) hf h
  rw [commandOf, present_ops, sign_env] at hcommand
  obtain ⟨r, hfit, hu⟩ := Txn.bind_eq_ok.mp hcommand
  cases hu
  cases hra
  exact ⟨eq_of_fitBits_ok hfit, faulted_of_status hstatus hf⟩

/-! ### The obligations -/

/-- Settles O21. EXTRACT answers on 32 bytes alone, and then with the last bits of the first. -/
theorem extractTakesLastBits : Obligations.ExtractTakesLastBits := by
  refine ⟨decode_encode .ckExtract, fun s hf hlen => ?_, fun s hf hlen => ?_⟩
  · obtain ⟨-, x, hx, hv⟩ :=
      (extract_cases s.ops.by_ s.ops.n.toNat).resolve_right fun hother => hother.1 hlen
    obtain ⟨t, hexec, hok⟩ := exec_ends_ok (i := .ckExtract) (by decide) hf
      (by rw [commandOf, hv, Txn.bind_ok])
    exact ⟨t, x, _, hx, hexec, hok, lastBits_isChecksum _ _⟩
  · obtain ⟨-, hv⟩ :=
      (extract_cases s.ops.by_ s.ops.n.toNat).resolve_left fun h32 => hlen h32.1
    exact exec_ends_fault (by decide) hf (by rw [commandOf, hv, Txn.bind_violation])

/-- Settles O22. COMPUTE is always Ok, with the last bits of the digest's first byte. -/
theorem computeGivesChecksum : Obligations.ComputeGivesChecksum := by
  refine ⟨decode_encode .ckCompute, fun s hf => ?_⟩
  obtain ⟨t, hexec, hok⟩ := exec_ends_ok (i := .ckCompute) (by decide) hf
    (by rw [commandOf, compute_eq, Txn.bind_ok])
  exact ⟨t, _, hexec, hok, lastBits_isChecksum _ _⟩

/-- Settles O23. The command is `fitBits` of the signed bits, and 8 len div 32 is len div 4. -/
theorem signAppendsChecksum : Obligations.SignAppendsChecksum := by
  refine ⟨decode_encode .ckSign, fun s hf => ?_⟩
  obtain ⟨t, hexec, hends⟩ := exec_fitBits_ends (i := .ckSign) (v := signedBits s.ops.by_)
    (by decide) hf (by rw [commandOf, sign_env])
  have hwidth : 8 * s.ops.by_.length / 32 = s.ops.by_.length / 4 :=
    Nat.mul_div_mul_left _ 4 (by decide)
  rw [signedBits_length, hwidth] at hends
  exact ⟨t, _, _, hexec, bytesToBits_isBitsOf _, lastBits_isChecksum _ _, hends⟩

/-- Settles O24. The first two clauses are the tests for width and whole bytes; past both the vector is
the bits of whole bytes and the claimed checksum, and the command compares. -/
theorem validateComparesChecksum : Obligations.ValidateComparesChecksum := by
  refine ⟨decode_encode .ckValidate, fun s hf hwide => ?_, fun s hf hle hodd => ?_,
    fun s hf hle hwhole => ?_⟩
  · exact exec_ends_fault (by decide) hf (by rw [commandOf, validate_of_wide hwide, Txn.bind_violation])
  · exact exec_ends_fault (by decide) hf
      (by rw [commandOf, validate_of_odd hle hodd, Txn.bind_violation])
  · obtain ⟨d, claimed, hva, hk⟩ := exists_bytes_append_claimed hwhole
    obtain ⟨t, hexec, hok, herr⟩ := exec_ckValidate_compares hf hva hk rfl hle
    exact ⟨t, _, claimed, d, _, hexec, hva, hk, bytesToBits_isBitsOf d, lastBits_isChecksum _ _, hok, herr⟩

/-- Settles O25. The answer of CK.SIGN is the signed bits, and those of 35 bytes or more are 288 bits
or more, so that their checksum would be wider than a byte. -/
theorem signedBitsValidate : Obligations.SignedBitsValidate := by
  intro s t e v hf hsign
  obtain ⟨rfl, hft⟩ := issue_ckSign_done hf hsign
  refine ⟨fun hshort => ?_, fun hlong => ?_⟩
  · obtain ⟨u, hissue, -⟩ := issue_ok (i := .ckValidate) (p := { noOperands with va := signedBits e })
      (f := fun _ => some ()) (by decide) (by decide) hft
      (by rw [commandOf, present_ops, validate_signedBits e hshort, Txn.bind_ok]) rfl
    exact ⟨u, hissue⟩
  · have hwide : 8 < (signedBits e).length / 32 := by rw [signedBits_length]; omega
    exact issue_violation (i := .ckValidate) (v := .checksumWidth) (by decide) hft
      (by rw [commandOf, present_ops, validate_of_wide hwide, Txn.bind_violation])

/-- Settles O26. A vector that validates is the bits of its bytes and their checksum. An inverted
checksum bit leaves the bytes and changes the claim; an inverted data bit leaves the claim, and the
changed data are again the bits of whole bytes. -/
theorem oneFlippedBitDetectedAsStated : Obligations.OneFlippedBitDetectedAsStated := by
  refine ⟨fun s t p b hf hexec hst hp hb => ?_, fun s t p b hf hexec hst hp hb => ?_⟩
  · obtain ⟨d, claimed, hva, hclaimed, hle, hsum⟩ := split_of_ckValidate_ok hf hexec hst
    rw [← length_data hva hclaimed] at hp
    have hset : bytesToBits d ++ claimed.set (p - (bytesToBits d).length) (!b) = s.ops.va.set p (!b) := by
      rw [← hva, List.set_append_right _ _ hp]
    rw [← hva, List.getElem?_append_right hp] at hb
    obtain ⟨u, hflip, -, herr⟩ :=
      exec_ckValidate_compares (s := { s with ops := { s.ops with va := s.ops.va.set p (!b) } })
        hf hset (by rw [List.length_set, hclaimed]) (by rw [List.length_set]) hle
    exact ⟨u, hflip, herr (hsum ▸ (set_not_ne hb).symm)⟩
  · obtain ⟨d, claimed, hva, hclaimed, hle, -⟩ := split_of_ckValidate_ok hf hexec hst
    rw [← length_data hva hclaimed] at hp
    have hset : (bytesToBits d).set p (!b) ++ claimed = s.ops.va.set p (!b) := by
      rw [← hva, List.set_append_left _ _ hp]
    obtain ⟨d', hd'⟩ := exists_bytesToBits_eq (v := (bytesToBits d).set p (!b))
      (by rw [List.length_set, bytesToBits_length, Nat.mul_mod_right])
    obtain ⟨u, hflip, hok, herr⟩ :=
      exec_ckValidate_compares (s := { s with ops := { s.ops with va := s.ops.va.set p (!b) } })
        hf (hd' ▸ hset) hclaimed (by rw [List.length_set]) hle
    exact ⟨u, bytesToBits d, claimed, d', _, hflip, hva, hclaimed, hd' ▸ bytesToBits_isBitsOf d',
      lastBits_isChecksum _ _, herr, hok⟩

end Sys2Proof.Machine

namespace Sys2Proof.Machine

/-! ## The mnemonic commands (43_mnemonic.md R85 to R96) -/

/-! ### The validators -/

theorem checkLength_of_valid {e : ByteSeq} (h : e.length ∈ [16, 20, 24, 28, 32]) :
    checkLength e = .ok () := by
  rw [checkLength_eq, decide_eq_true h, require_true]

theorem checkLength_of_invalid {e : ByteSeq} (h : e.length ∉ [16, 20, 24, 28, 32]) :
    checkLength e = .err .invalidEntropyLength := by
  rw [checkLength_eq, decide_eq_false h, require_false]

theorem checkWordCount_of_valid {ws : Sentence} (h : ws.length ∈ [12, 15, 18, 21, 24]) :
    checkWordCount ws = .ok () := by
  rw [checkWordCount_eq, decide_eq_true h, require_true]

theorem checkWordCount_of_invalid {ws : Sentence} (h : ws.length ∉ [12, 15, 18, 21, 24]) :
    checkWordCount ws = .err .invalidMnemonicWordCount := by
  rw [checkWordCount_eq, decide_eq_false h, require_false]

/-- Settles O27. CHKLEN passes exactly the five lengths, and the command adds nothing to it. -/
theorem checkLengthAcceptsFive : Obligations.CheckLengthAcceptsFive := by
  refine ⟨decode_encode .mnChklen, fun s hf hvalid => ?_, fun s hf hinvalid => ?_⟩
  · exact exec_ends_ok (by decide) hf (by rw [commandOf, checkLength_of_valid hvalid, Txn.bind_ok])
  · exact exec_ends_err (by decide) hf
      (by rw [commandOf, checkLength_of_invalid hinvalid, Txn.bind_err])

/-- Settles O28. CHKWC passes exactly the five word counts, and the command adds nothing to it. -/
theorem checkWordCountAcceptsFive : Obligations.CheckWordCountAcceptsFive := by
  refine ⟨decode_encode .mnChkwc, fun s hf hvalid => ?_, fun s hf hinvalid => ?_⟩
  · exact exec_ends_ok (by decide) hf
      (by rw [commandOf, checkWordCount_of_valid hvalid, Txn.bind_ok])
  · exact exec_ends_err (by decide) hf
      (by rw [commandOf, checkWordCount_of_invalid hinvalid, Txn.bind_err])

/-! ### The slicer -/

theorem chunkToIndex_of_le {c : Bits} (h : c.length ≤ 16) :
    chunkToIndex Config.env c = .ok (val c) :=
  ((chunkToIndex_cases c).resolve_right fun hwide => hwide.1.not_ge h).2

theorem chunkToIndex_of_wide {c : Bits} (h : 16 < c.length) :
    chunkToIndex Config.env c = .violation .chunkTooWide :=
  ((chunkToIndex_cases c).resolve_left fun hle => hle.1.not_gt h).2

/-- The port RN carries the value of a chunk of at most 16 bits whole (30_encoding.md R53). -/
theorem numberRn_val_toNat {c : Bits} (h : c.length ≤ 16) : (numberRn (val c)).toNat = val c :=
  Nat.mod_eq_of_lt ((val_lt c).trans_le (Nat.pow_le_pow_right (by decide) h))

/-- Settles O29. RN is the value of VA, so it is below 2^len and its digits are the bits of VA. -/
theorem chunkToIndexIsValue : Obligations.ChunkToIndexIsValue := by
  refine ⟨decode_encode .mnC2i, fun s hf hle => ?_, fun s hf hwide => ?_⟩
  · have hvalue := numberRn_val_toNat hle
    obtain ⟨t, hexec, hok⟩ := exec_ends_ok (i := .mnC2i) (by decide) hf
      (by rw [commandOf, chunkToIndex_of_le hle, Txn.bind_ok])
    refine ⟨t, _, hexec, hok, hvalue.trans_lt (val_lt _), fun i hi => ?_⟩
    rw [BitVec.getLsbD, hvalue, getElem?_eq_testBit_val _ _ hi]
  · exact exec_ends_fault (by decide) hf
      (by rw [commandOf, chunkToIndex_of_wide hwide, Txn.bind_violation])

/-- Settles O30. I2C is total, and bit i of its chunk is bit 10 - i of the number. -/
theorem indexToChunkKeepsLowBits : Obligations.IndexToChunkKeepsLowBits := by
  refine ⟨decode_encode .mnI2c, fun s hf => ?_⟩
  obtain ⟨t, hexec, hok⟩ := exec_ends_ok (i := .mnI2c) (by decide) hf rfl
  exact ⟨t, _, hexec, hok, indexToChunk_length _, fun i hi => indexToChunk_getElem? _ i hi⟩

/-- An answer leaves the latch clear: a fault gives none (60_exceptions.md R114). -/
theorem faulted_of_issue_done {α : Type} {i : Instr} {p : Operands} {f : Results → Option α}
    {s t : State} {a : α} (hi : i ≠ .sysRdst) (hd : i ≠ .dictLoad) (hf : s.faulted = false)
    (h : issue i p f s = .done a t) : t.faulted = false := by
  obtain ⟨u, -, -, hstatus, -⟩ := issue_done hi hd hf h
  exact faulted_of_status hstatus hf

/-- Every number is answered with the chunk of its low 11 bits (43_mnemonic.md R88). -/
theorem issue_mnI2c {s : State} (x : BitVec 16) (hf : s.faulted = false) :
    ∃ t, issue .mnI2c { noOperands with n := x } (fun r => r.ra) s = .done (indexToChunk x.toNat) t := by
  obtain ⟨t, hissue, -⟩ := issue_ok (i := .mnI2c) (p := { noOperands with n := x })
    (f := fun r => r.ra) (by decide) (by decide) hf rfl rfl
  exact ⟨t, hissue⟩

/-- Settles O31. Both commands answer, so the clauses are the two laws of the slicer: the chunk of the
value of 11 bits is those bits, and the value of the chunk of x is x mod 2048. -/
theorem slicerHalvesInverse : Obligations.SlicerHalvesInverse := by
  refine ⟨fun s c hf hc => ?_, fun s x hf => ?_⟩
  · have hle : c.length ≤ 16 := by omega
    obtain ⟨t, hindex⟩ := issue_mnC2i_of_le hf hle
    obtain ⟨u, hchunk⟩ := issue_mnI2c (numberRn (val c))
      (faulted_of_issue_done (by decide) (by decide) hf hindex)
    rw [numberRn_val_toNat hle, indexToChunk_val c hc] at hchunk
    exact ⟨_, t, u, hindex, hchunk⟩
  · have hle : (indexToChunk x.toNat).length ≤ 16 := by rw [indexToChunk_length]; decide
    obtain ⟨t, hchunk⟩ := issue_mnI2c x hf
    obtain ⟨u, hindex⟩ :=
      issue_mnC2i_of_le (faulted_of_issue_done (by decide) (by decide) hf hchunk) hle
    exact ⟨_, _, t, u, hchunk, hindex, by rw [numberRn_val_toNat hle, val_indexToChunk]⟩

/-! ### MN.ENCODE -/

/-- The word count of the spec, by the model's count of chunks (43_mnemonic.md R91 step 2). -/
theorem wordCount_eq {n : Nat} (h : n ∈ [16, 20, 24, 28, 32]) :
    (8 * n + 8 * n / 32) / 11 = 3 * (n / 4) := by
  simp only [List.mem_cons, List.not_mem_nil, or_false] at h
  omega

/-- The signed bits of a valid entropy are whole chunks (43_mnemonic.md R91 step 4). -/
theorem signedBits_length_of_valid {e : ByteSeq} (h : e.length ∈ [16, 20, 24, 28, 32]) :
    (signedBits e).length = 11 * (3 * (e.length / 4)) := by
  rw [signedBits_length]
  simp only [List.mem_cons, List.not_mem_nil, or_false] at h
  omega

/-- Each word of a slicing of whole chunks is the entry of its chunk (30_encoding.md R54). -/
theorem sliceWords_isChunk {m : Memory} {k : Nat} {v : Bits} {ws : Sentence}
    (h : sliceWords m k v = .ok ws) (hl : v.length = 11 * k) {j : Nat} {w : Word} (hj : ws[j]? = some w) :
    ∃ idx, Memory.read m idx = some w ∧ IsChunk v j idx := by
  have hjk : j < k := sliceWords_length h ▸ (List.getElem?_eq_some_iff.mp hj).1
  obtain ⟨w', hw', hread⟩ := sliceWords_getElem? h j hjk
  obtain rfl : w = w' := Option.some.inj (hj.symm.trans hw')
  exact ⟨_, hread, isChunk_val v j (by omega)⟩

/-- Settles O32. On a complete dictionary the walk gives the slicing of the signed bits, which are
whole chunks; the other two clauses are the test of the length and, before it, of readiness. -/
theorem encodeGivesSentence : Obligations.EncodeGivesSentence := by
  refine ⟨decode_encode .mnEncode, fun s hf hr hdict hvalid => ?_, fun s hf hr hinvalid => ?_,
    fun s hf hr => ?_⟩
  · obtain ⟨ws, u, hslice, hcommand, hres⟩ := commandOf_encode_ok hr hdict hvalid
    obtain ⟨t, hexec, hok⟩ := exec_ends_results (by decide) (by decide) hf hcommand
    have hcount := sliceWords_length hslice
    have hlength := signedBits_length_of_valid hvalid
    exact ⟨t, ws, _, _, hexec, hres ▸ hok, bytesToBits_isBitsOf _, lastBits_isChecksum _ _,
      by rw [hcount, wordCount_eq hvalid], by rw [hcount]; exact hlength,
      fun j w hj => sliceWords_isChunk hslice hlength hj⟩
  · exact exec_ends_err (by decide) hf (by
      rw [commandOf, encodeCommand, requireReady_ready hr, Txn.bind_ok, encode_walk_invalid _ _ hinvalid])
  · exact exec_ends_fault (by decide) hf (by
      rw [commandOf, encodeCommand, requireReady_unready hr, Txn.bind_violation])

/-! ### MN.DECODE -/

theorem commandOf_decode_of_ready {s : State} (hr : s.dictReady = true) :
    commandOf .mnDecode s = sequencerWalk Config.env walkBound { s with ph := .d1 } := by
  rw [commandOf, decodeCommand, requireReady_ready hr, Txn.bind_ok]

/-- Words that a complete dictionary knows all join. -/
theorem joinChunks_of_known {m : Memory} (hdict : m.HoldsDictionary) {ws : Sentence}
    (h : ∀ w ∈ ws, ¬ m.Lacks w) : ∃ v, joinChunks m ws = .ok v := by
  rcases joinChunks_cases m ws with ⟨-, hjoin⟩ | ⟨⟨w, hw, hnone⟩, -⟩
  · exact hjoin
  · exact absurd ((hdict.lacks_iff w).mpr hnone) (h w hw)

/-- Words that do not join end the command (43_mnemonic.md R92 step 2). -/
theorem commandOf_decode_unjoined {s : State} (hr : s.dictReady = true)
    (hcount : s.ops.se.length ∈ [12, 15, 18, 21, 24])
    (herr : joinChunks s.dict s.ops.se = .err .invalidWord) :
    commandOf .mnDecode s = .err .invalidWord := by
  rw [commandOf_decode_of_ready hr]
  rcases decode_walk Config.env s hcount with ⟨-, hwalk⟩ | ⟨v, d, hjoin, -⟩
  · exact hwalk
  · rw [herr] at hjoin; cases hjoin

/-- So does a word that the dictionary lacks, at any position. -/
theorem commandOf_decode_absent {s : State} {w : Word} (hr : s.dictReady = true)
    (hcount : s.ops.se.length ∈ [12, 15, 18, 21, 24]) (hwf : Memory.wf s.dict = true)
    (hw : w ∈ s.ops.se) (hlacks : s.dict.Lacks w) : commandOf .mnDecode s = .err .invalidWord := by
  have hnone := (Memory.lacks_iff hwf w).mp hlacks
  obtain ⟨-, herr⟩ := (joinChunks_cases s.dict s.ops.se).resolve_left fun hall => hall.1 w hw hnone
  exact commandOf_decode_unjoined hr hcount herr

/-- Words that join to `v`: the command splits `v` into bytes and the claimed checksum, and compares
(43_mnemonic.md R92 steps 3 to 6). -/
theorem commandOf_decode_joined {s : State} {v : Bits} (hr : s.dictReady = true)
    (hcount : s.ops.se.length ∈ [12, 15, 18, 21, 24]) (hjoin : joinChunks s.dict s.ops.se = .ok v) :
    ∃ d claimed, bytesToBits d ++ claimed = v ∧ claimed.length = v.length / 32 ∧
      (lastBits (Config.digest d)[0] (v.length / 32) = claimed →
        ∃ u, commandOf .mnDecode s = .ok u ∧ u.res = { rby := some d }) ∧
      (lastBits (Config.digest d)[0] (v.length / 32) ≠ claimed →
        commandOf .mnDecode s = .err .invalidChecksum) := by
  rw [commandOf_decode_of_ready hr]
  rcases decode_walk Config.env s hcount with ⟨herr, -⟩ | ⟨v', d, hjoin', -, hd, hcase⟩
  · rw [hjoin] at herr; cases herr
  · obtain rfl : v = v' := Txn.ok.inj (hjoin.symm.trans hjoin')
    refine ⟨d, v.drop (v.length - v.length / 32), by rw [hd, List.take_append_drop],
      by rw [List.length_drop, Nat.sub_sub_self (Nat.div_le_self _ _)], ?_⟩
    rcases hcase with ⟨hsum, -, hwalk⟩ | ⟨hsum, -, hwalk⟩
    · exact ⟨fun heq => absurd heq hsum, fun _ => hwalk⟩
    · exact ⟨fun _ => hwalk, fun hne => absurd hsum hne⟩

/-- MN.DECODE of such words ends Ok with the bytes if their checksum is the claimed one, and in
InvalidChecksum if not (43_mnemonic.md R92 step 4). -/
theorem exec_mnDecode_compares {s : State} {v : Bits} (hf : s.faulted = false) (hr : s.dictReady = true)
    (hcount : s.ops.se.length ∈ [12, 15, 18, 21, 24]) (hjoin : joinChunks s.dict s.ops.se = .ok v) :
    ∃ t d claimed, exec .mnDecode s = .next t ∧ bytesToBits d ++ claimed = v ∧
      claimed.length = v.length / 32 ∧
      (lastBits (Config.digest d)[0] (v.length / 32) = claimed → EndsOk s t { rby := some d }) ∧
      (lastBits (Config.digest d)[0] (v.length / 32) ≠ claimed → EndsErr s t .invalidChecksum) := by
  obtain ⟨d, claimed, hv, hclaimed, hmatch, hmismatch⟩ := commandOf_decode_joined hr hcount hjoin
  by_cases hsum : lastBits (Config.digest d)[0] (v.length / 32) = claimed
  · obtain ⟨u, hcommand, hres⟩ := hmatch hsum
    obtain ⟨t, hexec, hok⟩ := exec_ends_results (by decide) (by decide) hf hcommand
    exact ⟨t, d, claimed, hexec, hv, hclaimed, fun _ => hres ▸ hok, fun hne => absurd hsum hne⟩
  · obtain ⟨t, hexec, herr⟩ := exec_ends_err (by decide) hf (hmismatch hsum)
    exact ⟨t, d, claimed, hexec, hv, hclaimed, fun heq => absurd heq hsum, fun _ => herr⟩

/-- Settles O33. With every word known the chunks join, each the index of its word, and the command
compares; the other clauses are the tests before it, the last of them the first to be made. -/
theorem decodeGivesBytes : Obligations.DecodeGivesBytes := by
  refine ⟨decode_encode .mnDecode, fun s hf hr hdict hcount hknown => ?_,
    fun s w hf hr hcount hwf hw hlacks => ?_, fun s hf hr hcount => ?_, fun s hf hr => ?_⟩
  · obtain ⟨v, hjoin⟩ := joinChunks_of_known hdict hknown
    obtain ⟨t, d, claimed, hexec, hv, hclaimed, hok, herr⟩ := exec_mnDecode_compares hf hr hcount hjoin
    exact ⟨t, v, _, claimed, d, _, hexec, joinChunks_length hjoin, joinChunks_isChunk hdict hjoin, hv,
      hclaimed, bytesToBits_isBitsOf d, lastBits_isChecksum _ _, hok, herr⟩
  · exact exec_ends_err (by decide) hf (commandOf_decode_absent hr hcount hwf hw hlacks)
  · exact exec_ends_err (by decide) hf
      (by rw [commandOf_decode_of_ready hr, decode_walk_count _ _ hcount])
  · exact exec_ends_fault (by decide) hf
      (by rw [commandOf, decodeCommand, requireReady_unready hr, Txn.bind_violation])

/-! ### The round trip -/

/-- The word count of a valid entropy is one that MN.DECODE accepts. -/
theorem wordCount_mem {n : Nat} (h : n ∈ [16, 20, 24, 28, 32]) :
    3 * (n / 4) ∈ [12, 15, 18, 21, 24] := by
  simp only [List.mem_cons, List.not_mem_nil, or_false] at h ⊢
  omega

/-- The bits of a sentence of valid count, split into bytes and their checksum: the bytes are an entropy
of the length that the count asks, and the split is their signing (43_mnemonic.md R96). -/
theorem eq_signedBits_of_split {v : Bits} {d : ByteSeq} {n : Nat} (hn : n ∈ [12, 15, 18, 21, 24])
    (hlength : v.length = 11 * n)
    (hv : bytesToBits d ++ lastBits (Config.digest d)[0] (v.length / 32) = v) :
    v = signedBits d ∧ d.length ∈ [16, 20, 24, 28, 32] ∧ n = 3 * (d.length / 4) := by
  have hparts : 8 * d.length + min (v.length / 32) 8 = v.length := by
    simpa using congrArg List.length hv
  simp only [List.mem_cons, List.not_mem_nil, or_false] at hn ⊢
  have hk : v.length / 32 = 8 * d.length / 32 := by omega
  exact ⟨by rw [signedBits, ← hk, hv], by omega, by omega⟩

/-- An Ok of MN.DECODE, inverted: the sentence joins to the signed bits of the answered bytes. -/
theorem commandOf_decode_ok_inv {s u : State} (hr : s.dictReady = true)
    (h : commandOf .mnDecode s = .ok u) :
    ∃ e, u.res = { rby := some e } ∧ e.length ∈ [16, 20, 24, 28, 32] ∧
      s.ops.se.length = 3 * (e.length / 4) ∧ joinChunks s.dict s.ops.se = .ok (signedBits e) := by
  by_cases hcount : s.ops.se.length ∈ [12, 15, 18, 21, 24]
  case neg => rw [commandOf_decode_of_ready hr, decode_walk_count _ _ hcount] at h; cases h
  rcases joinChunks_cases s.dict s.ops.se with ⟨-, v, hjoin⟩ | ⟨-, herr⟩
  case inr => rw [commandOf_decode_unjoined hr hcount herr] at h; cases h
  obtain ⟨d, claimed, hv, -, hmatch, hmismatch⟩ := commandOf_decode_joined hr hcount hjoin
  by_cases hsum : lastBits (Config.digest d)[0] (v.length / 32) = claimed
  case neg => rw [hmismatch hsum] at h; cases h
  obtain ⟨u', hu', hres⟩ := hmatch hsum
  obtain rfl : u = u' := Txn.ok.inj (h.symm.trans hu')
  subst hsum
  obtain ⟨rfl, hvalid, hwords⟩ := eq_signedBits_of_split hcount (joinChunks_length hjoin) hv
  exact ⟨d, hres, hvalid, hwords, hjoin⟩

/-- MN.ENCODE of a valid entropy is answered with the slicing of its signed bits. -/
theorem issue_mnEncode_of_valid {s : State} {e : ByteSeq} (hf : s.faulted = false)
    (hr : s.dictReady = true) (hdict : s.dict.HoldsDictionary) (hvalid : e.length ∈ [16, 20, 24, 28, 32]) :
    ∃ ws t, sliceWords s.dict (3 * (e.length / 4)) (signedBits e) = .ok ws ∧
      issue .mnEncode { noOperands with by_ := e } (fun r => r.rse) s = .done ws t ∧
      t.status = s.status ∧ t.dict = s.dict := by
  obtain ⟨ws, u, hslice, hcommand, hres⟩ :=
    commandOf_encode_ok (s := s.present .mnEncode { noOperands with by_ := e }) hr hdict hvalid
  obtain ⟨t, ht⟩ := issue_ok (i := .mnEncode) (f := fun r => r.rse) (by decide) (by decide) hf hcommand
    (by rw [hres])
  exact ⟨ws, t, hslice, ht⟩

/-- Settles O34. ENCODE slices the signed bits, and DECODE joins the slices back to them; an accepted
sentence joins to the signed bits of its bytes, and ENCODE slices them back to it; a word that the
dictionary lacks does not join. -/
theorem entropyAndSentenceRoundTrip : Obligations.EntropyAndSentenceRoundTrip := by
  refine ⟨fun s e hinv hf hr hvalid => ?_, fun s t ws e hinv hf hr hdecode => ?_,
    fun s ws w hwf hf hr hcount hw hlacks => ?_⟩
  · have hdict := hinv.loaded hr
    obtain ⟨ws, t, hslice, hencode, hstatus, hsame⟩ := issue_mnEncode_of_valid hf hr hdict hvalid
    have hwords := sliceWords_length hslice
    have hjoin := joinChunks_sliceWords hdict (signedBits_length_of_valid hvalid) hslice
    obtain ⟨v, hcommand, hres⟩ := commandOf_decode_ok (e := e)
      (s := t.present .mnDecode { noOperands with se := ws }) (ready_of_status hstatus hr)
      (by simp only [List.mem_cons, List.not_mem_nil, or_false] at hvalid; omega)
      (hwords ▸ wordCount_mem hvalid) (hsame ▸ hjoin)
    obtain ⟨u, hdecode, -⟩ := issue_ok (i := .mnDecode) (f := fun r => r.rby) (by decide) (by decide)
      (faulted_of_status hstatus hf) hcommand (by rw [hres])
    exact ⟨ws, t, u, hencode, by rw [hwords, wordCount_eq hvalid], hdecode⟩
  · obtain ⟨u, hcommand, hrby, hstatus, hsame⟩ := issue_done (by decide) (by decide) hf hdecode
    obtain ⟨e', hres, hvalid, hwords, hjoin⟩ :=
      commandOf_decode_ok_inv (s := s.present .mnDecode { noOperands with se := ws }) hr hcommand
    obtain rfl : e' = e := by rw [hres] at hrby; exact Option.some.inj hrby
    have hdict : t.dict.HoldsDictionary := hsame ▸ hinv.loaded hr
    obtain ⟨ws', u', hslice, hencode, -⟩ := issue_mnEncode_of_valid (faulted_of_status hstatus hf)
      (ready_of_status hstatus hr) hdict hvalid
    have hback : sliceWords s.dict ws.length (signedBits e') = .ok ws :=
      sliceWords_joinChunks (hinv.loaded hr) hjoin
    obtain rfl : ws' = ws := by
      rw [hsame] at hslice
      exact Txn.ok.inj (hslice.symm.trans (hwords ▸ hback))
    exact ⟨u', hencode⟩
  · obtain ⟨t, hissue, -⟩ := issue_err (i := .mnDecode) (p := { noOperands with se := ws })
      (f := fun r => r.rby) (by decide) hf (commandOf_decode_absent hr hcount hwf hw hlacks)
    exact ⟨t, hissue⟩

end Sys2Proof.Machine

namespace Sys2Proof.Machine

/-! ## SYS.RDST and the dictionary commands (44_dictionary_system.md R100 to R103) -/

/-! ### Reading STATUS -/

/-- SYS.RDST passes by the latch test, so it ends Ok on every engine. -/
theorem exec_sysRdst_ends (s : State) :
    ∃ t, exec .sysRdst s = .next t ∧ EndsOk s t { rn := some ((readStatus s).setWidth 16) } :=
  ⟨_, exec_sysRdst s, takeOk_ends s _⟩

/-- The zero-extension to 16 bits keeps the number that STATUS is. -/
theorem readStatus_setWidth_toNat (s : State) : ((readStatus s).setWidth 16).toNat =
    16 * s.freason.toNat + 2 * s.faulted.toNat + s.dictReady.toNat := by
  rw [BitVec.toNat_setWidth_of_le (by decide)]
  exact statusWord_toNat s.freason s.faulted s.dictReady

/-- Settles O6. What stands on RN is the STATUS word put together from its fields. -/
theorem readStatusGivesStatus : Obligations.ReadStatusGivesStatus := by
  refine ⟨decode_encode .sysRdst, fun s => ?_⟩
  obtain ⟨t, hexec, hok⟩ := exec_sysRdst_ends s
  exact ⟨t, _, hexec, hok, readStatus_setWidth_toNat s⟩

/-! ### DICT.LOAD -/

/-- The load puts word `idx` of the list at index `idx`. -/
theorem Memory.read_writeAll_inside (m : Memory) {ws : List Word} {idx : Nat} (h : idx < ws.length) :
    Memory.read (Memory.writeAll m 0 ws) idx = ws[idx]? := by
  simp [Memory.read_writeAll, h]

/-- The load leaves every index from the length of the list on. -/
theorem Memory.read_writeAll_beyond (m : Memory) {ws : List Word} {idx : Nat} (h : ws.length ≤ idx) :
    Memory.read (Memory.writeAll m 0 ws) idx = Memory.read m idx := by
  simp [Memory.read_writeAll, Nat.not_lt.mpr h]

/-- A list that passes the check is loaded at once, with the ready bit. -/
theorem exec_dictLoad_of_valid {s : State} (hf : s.faulted = false) (hr : s.dictReady = false)
    (hl : s.ops.se.length = 2048) (hn : s.ops.se.Nodup) :
    exec .dictLoad s = .next (takeOk
      (({ s with dict := Memory.writeAll s.dict 0 s.ops.se }.setReady).writeResults {})) := by
  rw [exec_eq_perform .dictLoad s (by decide), commandOf, dictLoad_of_valid hr hl hn, perform_ok hf]

theorem dictLoad_of_ready {s : State} (h : s.dictReady = true) :
    dictLoad s = .violation .dictAlreadyLoaded := by
  rw [dictLoad, h, checkNot_true, Txn.bind_violation]

theorem dictLoad_of_invalid {s : State} (h : s.dictReady = false)
    (hbad : ¬ (s.ops.se.length = 2048 ∧ s.ops.se.Nodup)) : dictLoad s = .err .dictInvalid := by
  have hcheck : validWordList s.ops.se = false := by simpa [validWordList] using hbad
  rw [dictLoad, h, checkNot_false, Txn.bind_ok, portSe_eq, hcheck, require_false, Txn.bind_err]

/-- A list with a wrong number of words or a repeated word does not pass the load check. -/
theorem not_valid_of_wrong_or_repeated {l : List Word}
    (h : l.length ≠ 2048 ∨ ∃ i j, i < j ∧ j < 2048 ∧ l[i]? = l[j]?) :
    ¬ (l.length = 2048 ∧ l.Nodup) := by
  rintro ⟨hl, hn⟩
  rcases h with hne | ⟨i, j, hij, hj, heq⟩
  · exact hne hl
  · exact (nodup_iff_getElem?_ne l hl).mp hn i j hij hj heq

/-- Settles O7. A list that passes the check is written by `Memory.writeAll`, which puts word idx at
index idx and touches no other; any other list fails the check, which a ready dictionary never
reaches. -/
theorem dictLoadChecksAndWrites : Obligations.DictLoadChecksAndWrites := by
  refine ⟨decode_encode .dictLoad, fun s hf hr hl hne => ?_, fun s hf hr hbad => ?_, fun s hf hr => ?_⟩
  · refine ⟨_, exec_dictLoad_of_valid hf hr hl ((nodup_iff_getElem?_ne _ hl).mpr hne), rfl, rfl, rfl, rfl,
      setReady_dictReady _, (setReady_faulted _).trans hf, setReady_freason _, fun idx hidx => ?_,
      fun idx hidx => ?_⟩
    · exact Memory.read_writeAll_inside s.dict (hl.symm ▸ hidx)
    · exact Memory.read_writeAll_beyond s.dict (hl.symm ▸ hidx)
  · exact exec_ends_err (by decide) hf (dictLoad_of_invalid hr (not_valid_of_wrong_or_repeated hbad))
  · exact exec_ends_fault (by decide) hf (dictLoad_of_ready hr)

/-! ### DICT.WORD -/

theorem readEntry_of_beyond {m : Memory} {i : Nat} (hi : 2048 ≤ i) :
    readEntry m i = .violation .indexOutOfRange := by
  simp [readEntry, hi]

theorem dictWord_of_ready {s : State} (hr : s.dictReady = true) :
    dictWord s = (readEntry s.dict s.ops.n.toNat).bind fun w => .ok (s.writeResults { rwd := some w }) := by
  rw [dictWord, requireReady_ready hr, Txn.bind_ok, portN_eq]

theorem dictWord_of_unready {s : State} (hr : s.dictReady = false) :
    dictWord s = .violation .dictNotReady := by
  rw [dictWord, requireReady_unready hr, Txn.bind_violation]

/-- Settles O8. On a ready dictionary the command is `readEntry` at N. -/
theorem dictWordReadsEntry : Obligations.DictWordReadsEntry := by
  refine ⟨decode_encode .dictWord, fun s w hf hr hn hread => ?_, fun s hf hr hn => ?_, fun s hf hr => ?_⟩
  · exact exec_ends_ok (by decide) hf
      (by rw [commandOf, dictWord_of_ready hr, readEntry_of_read hn hread, Txn.bind_ok])
  · exact exec_ends_fault (by decide) hf
      (by rw [commandOf, dictWord_of_ready hr, readEntry_of_beyond hn, Txn.bind_violation])
  · exact exec_ends_fault (by decide) hf (dictWord_of_unready hr)

/-! ### DICT.INDEX -/

theorem findEntry_of_some {m : Memory} {w : Word} {i : Nat} (h : Memory.find m w = some i) :
    findEntry m w = .ok i := by
  simp [findEntry, h]

theorem findEntry_of_none {m : Memory} {w : Word} (h : Memory.find m w = none) :
    findEntry m w = .err .invalidWord := by
  simp [findEntry, h]

theorem dictIndex_of_ready {s : State} (hr : s.dictReady = true) :
    dictIndex s = (findEntry s.dict s.ops.wd).bind fun idx =>
      .ok (s.writeResults { rn := some (numberRn idx) }) := by
  rw [dictIndex, requireReady_ready hr, Txn.bind_ok, portWd_eq]

theorem dictIndex_of_unready {s : State} (hr : s.dictReady = false) :
    dictIndex s = .violation .dictNotReady := by
  rw [dictIndex, requireReady_unready hr, Txn.bind_violation]

/-- RN carries a number below 65536 whole (30_encoding.md R53). -/
theorem numberRn_toNat_of_lt {x : Nat} (h : x < 65536) : (numberRn x).toNat = x := by
  rw [numberRn, BitVec.toNat_ofNat, Nat.mod_eq_of_lt h]

/-- Settles O9. In a complete dictionary the lookup by word finds exactly the index that reads back
the word; in a memory in canonical form it fails exactly on an absent word. -/
theorem dictIndexFindsEntry : Obligations.DictIndexFindsEntry := by
  refine ⟨decode_encode .dictIndex, fun s idx hf hr hdict hread => ?_, fun s hf hr hlacks hwf => ?_,
    fun s hf hr => ?_⟩
  · have hfind := hdict.find_iff_read.mpr hread
    have hlt := hdict.find_lt hfind
    obtain ⟨t, hexec, hok⟩ := exec_ends_ok (i := .dictIndex) (by decide) hf
      (by rw [commandOf, dictIndex_of_ready hr, findEntry_of_some hfind, Txn.bind_ok])
    exact ⟨t, _, hexec, hok, numberRn_toNat_of_lt (hlt.trans (by decide)), hlt⟩
  · have hnone := (Memory.lacks_iff hwf s.ops.wd).mp hlacks
    exact exec_ends_err (by decide) hf
      (by rw [commandOf, dictIndex_of_ready hr, findEntry_of_none hnone, Txn.bind_err])
  · exact exec_ends_fault (by decide) hf (dictIndex_of_unready hr)

end Sys2Proof.Machine

namespace Sys2Proof.Machine

/-! ## Errors and faults are precise (60_exceptions.md R112 to R114) -/

/-- A command that ends with ST other than 0 was refused by the latch, or ended in a typed error, or in a
violation. SYS.RDST, which alone passes by the latch, raises none, so a violation finds the latch clear. -/
theorem exec_failure_cases {i : Instr} {s t : State} (h : exec i s = .next t) (hst : t.st ≠ 0#4) :
    (s.faulted = true ∧ EndsRefused s t) ∨ (∃ e, EndsErr s t e) ∨
      (s.faulted = false ∧ ∃ v, EndsFault s t v) := by
  rcases exec_cases h with ⟨-, hf, rfl⟩ |
    ⟨hf, ⟨r, -, -, rfl⟩ | ⟨-, -, -, -, rfl⟩ | ⟨e, -, rfl⟩ | ⟨v, hv, rfl⟩⟩
  · exact .inl ⟨hf, refuseLatched_ends s⟩
  · exact absurd (takeOk_st _) hst
  · exact absurd (takeOk_st _) hst
  · exact .inr (.inl ⟨e, takeError_ends s e⟩)
  · have hi : i ≠ .sysRdst := by
      rintro rfl
      exact absurd hv List.not_mem_nil
    exact .inr (.inr ⟨hf hi, v, takeFault_ends s v⟩)

/-- The same of a step: an illegal byte is refused by the latch or ends in a violation. -/
theorem step_failure_cases {s t : State} (h : step s = .next t) (hst : t.st ≠ 0#4) :
    (s.faulted = true ∧ EndsRefused s t) ∨ (∃ e, EndsErr s t e) ∨
      (s.faulted = false ∧ ∃ v, EndsFault s t v) := by
  rcases step_cases h with ⟨i, -, hexec⟩ | ⟨-, ⟨hf, rfl⟩ | ⟨hf, rfl⟩⟩
  · exact exec_failure_cases hexec hst
  · exact .inl ⟨hf, refuseLatched_ends s⟩
  · exact .inr (.inr ⟨hf, _, takeFault_ends s _⟩)

/-- Settles O45. Each of the three failing ends carries its whole frame. A refusal and a typed error keep
STATUS, and no typed error has the code 15; a violation sets FAULT, on an engine whose FAULT was 0. -/
theorem failuresArePrecise : Obligations.FailuresArePrecise := by
  intro s t hstep hst
  rcases step_failure_cases hstep hst with ⟨hf, hend⟩ | ⟨e, hend⟩ | ⟨hf, v, hend⟩
  · have hlatched : t.faulted = true := (congrArg statusFault hend.status).trans hf
    exact ⟨hend.res, hend.dict, hend.ops, congrArg statusReady hend.status, hend.ph,
      fun _ => hend.status, fun _ => hlatched, fun _ => hend.status⟩
  · have hcode : t.st ≠ 15#4 := hend.st ▸ errorCode_ne_faulted e
    exact ⟨hend.res, hend.dict, hend.ops, congrArg statusReady hend.status, hend.ph,
      fun _ => hend.status, fun h15 => absurd h15 hcode, fun _ => hend.status⟩
  · have hclear : s.faulted ≠ true := by simp [hf]
    exact ⟨hend.res, hend.dict, hend.ops, hend.ready, hend.ph,
      fun h15 => absurd hend.st h15, fun _ => hend.fault, fun hset => absurd hset hclear⟩

end Sys2Proof.Machine

namespace Sys2Proof.Machine

/-! ## Readiness before operands (60_exceptions.md R111; 70_reset_and_hazards.md R127) -/

/-- The latch outlasts a run: without a reset, a faulted engine keeps STATUS and the dictionary
(60_exceptions.md R109, R114). -/
theorem session_present_of_faulted {ps : List Operands} {s t : State} (hf : s.faulted = true)
    (h : session (ps.map HostEvent.present) s = .next t) : t.status = s.status ∧ t.dict = s.dict := by
  induction ps generalizing s with
  | nil =>
    obtain rfl : s = t := Host.Outcome.next.inj h
    exact ⟨rfl, rfl⟩
  | cons p ps ih =>
    obtain ⟨u, hstep, hrest⟩ := session_cons_next h
    obtain ⟨hstatus, hdict⟩ : u.status = s.status ∧ u.dict = s.dict :=
      step_of_faulted (s := { s with ops := p }) hf hstep
    obtain ⟨hstatus', hdict'⟩ := ih ((congrArg statusFault hstatus).trans hf) hrest
    exact ⟨hstatus'.trans hstatus, hdict'.trans hdict⟩

theorem encodeCommand_of_unready {env : Env} {s : State} (hr : s.dictReady = false) :
    encodeCommand env s = .violation .dictNotReady := by
  rw [encodeCommand, requireReady_unready hr, Txn.bind_violation]

theorem decodeCommand_of_unready {env : Env} {s : State} (hr : s.dictReady = false) :
    decodeCommand env s = .violation .dictNotReady := by
  rw [decodeCommand, requireReady_unready hr, Txn.bind_violation]

/-- The commands that read the dictionary (70_reset_and_hazards.md R127) come to one violation when it is
not ready, whatever stands on the operand ports. -/
theorem commandOf_reader_of_unready {i : Instr} {s : State}
    (hi : i ∈ [.dictWord, .dictIndex, .mnEncode, .mnDecode]) (hr : s.dictReady = false) :
    i ≠ .sysRdst ∧ commandOf i s = .violation .dictNotReady := by
  simp only [List.mem_cons, List.not_mem_nil, or_false] at hi
  rcases hi with rfl | rfl | rfl | rfl
  · exact ⟨by decide, dictWord_of_unready hr⟩
  · exact ⟨by decide, dictIndex_of_unready hr⟩
  · exact ⟨by decide, encodeCommand_of_unready hr⟩
  · exact ⟨by decide, decodeCommand_of_unready hr⟩

/-- Settles O10. A reader's first act is the readiness test and the load's first act its opposite, so
neither outcome mentions an operand; the latch that the violation sets outlasts every run. -/
theorem readinessPrecedesOperands : Obligations.ReadinessPrecedesOperands := by
  refine ⟨fun s i hi hf hr => ?_, fun s hf hr => ?_⟩
  · obtain ⟨hne, hcommand⟩ := commandOf_reader_of_unready hi hr
    obtain ⟨t, hexec, hfault⟩ := exec_ends_fault hne hf hcommand
    refine ⟨t, hexec, hfault, fun ps u hrun => ?_⟩
    have hstatus : u.status = t.status := (session_present_of_faulted hfault.fault hrun).1
    exact (congrArg statusFault hstatus).trans hfault.fault
  · exact exec_ends_fault (by decide) hf (dictLoad_of_ready hr)

end Sys2Proof.Machine

namespace Sys2Proof.Machine

/-! ## The invariant and the end of every transaction (10_state.md R10, R14 to R16, R19) -/

/-! ### What a step does to STATUS and the dictionary -/

/-- Every end of a transaction leaves PH idle (10_state.md R14). -/
theorem exec_ph {i : Instr} {s t : State} (h : exec i s = .next t) : t.ph = .idle := by
  rcases exec_cases h with ⟨-, -, rfl⟩ |
    ⟨-, ⟨r, -, -, rfl⟩ | ⟨-, -, -, -, rfl⟩ | ⟨e, -, rfl⟩ | ⟨v, -, rfl⟩⟩ <;> rfl

/-- The same of a step. -/
theorem step_ph {s t : State} (h : step s = .next t) : t.ph = .idle := by
  rcases step_cases h with ⟨i, -, hexec⟩ | ⟨-, ⟨-, rfl⟩ | ⟨-, rfl⟩⟩
  · exact exec_ph hexec
  · rfl
  · rfl

/-- Every end leaves STATUS and the dictionary alone, but for two: a load that passes its check on an
engine that is not ready, and a violation on one that is not faulted. -/
theorem exec_status_cases {i : Instr} {s t : State} (h : exec i s = .next t) :
    (t.status = s.status ∧ t.dict = s.dict) ∨
    (i = .dictLoad ∧ s.dictReady = false ∧ s.ops.se.length = 2048 ∧ s.ops.se.Nodup ∧
      t = takeOk (({ s with dict := Memory.writeAll s.dict 0 s.ops.se }.setReady).writeResults {})) ∨
    (s.faulted = false ∧ ∃ v, t = takeFault s v) := by
  rcases exec_cases h with ⟨-, -, rfl⟩ | ⟨hf, ⟨r, -, -, rfl⟩ | hload | ⟨e, -, rfl⟩ | ⟨v, hv, rfl⟩⟩
  · exact .inl ⟨rfl, rfl⟩
  · exact .inl ⟨rfl, rfl⟩
  · exact .inr (.inl hload)
  · exact .inl ⟨rfl, rfl⟩
  · have hi : i ≠ .sysRdst := by
      rintro rfl
      exact absurd hv List.not_mem_nil
    exact .inr (.inr ⟨hf hi, v, rfl⟩)

/-- The same of a step: an illegal byte is refused by the latch or ends in a violation. -/
theorem step_status_cases {s t : State} (h : step s = .next t) :
    (t.status = s.status ∧ t.dict = s.dict) ∨
    (decode s.ops.cmd = .ok .dictLoad ∧ s.dictReady = false ∧ s.ops.se.length = 2048 ∧ s.ops.se.Nodup ∧
      t = takeOk (({ s with dict := Memory.writeAll s.dict 0 s.ops.se }.setReady).writeResults {})) ∨
    (s.faulted = false ∧ ∃ v, t = takeFault s v) := by
  rcases step_cases h with ⟨i, hdecode, hexec⟩ | ⟨-, ⟨-, rfl⟩ | ⟨hf, rfl⟩⟩
  · exact (exec_status_cases hexec).imp_right (Or.imp_left fun ⟨hi, hload⟩ => ⟨hi ▸ hdecode, hload⟩)
  · exact .inl ⟨rfl, rfl⟩
  · exact .inr (.inr ⟨hf, _, rfl⟩)

/-! ### The invariant through each end -/

/-- The invariant speaks of PH, STATUS and the dictionary alone. -/
theorem State.Inv.of_kept {s t : State} (h : s.Inv) (hph : t.ph = .idle) (hstatus : t.status = s.status)
    (hdict : t.dict = s.dict) : t.Inv where
  idle := hph
  status := hstatus ▸ h.status
  memory := hdict ▸ h.memory
  loaded hr := hdict ▸ h.loaded ((congrArg statusReady hstatus).symm.trans hr)
  unloaded hr := hdict ▸ h.unloaded ((congrArg statusReady hstatus).symm.trans hr)

/-- A violation latches a legal reason and leaves DICT_READY and the dictionary (60_exceptions.md R114). -/
theorem State.Inv.after_takeFault {s : State} (h : s.Inv) (v : Violation) : (takeFault s v).Inv where
  idle := rfl
  status := legalStatus_latch v s.dictReady
  memory := h.memory
  loaded hr := h.loaded ((takeFault_dictReady s v).symm.trans hr)
  unloaded hr := h.unloaded ((takeFault_dictReady s v).symm.trans hr)

/-- A load that passes its check makes the empty memory of an unloaded engine a complete dictionary
(44_dictionary_system.md R101). -/
theorem State.Inv.after_load {s : State} (h : s.Inv) (hr : s.dictReady = false)
    (hl : s.ops.se.length = 2048) (hn : s.ops.se.Nodup) :
    (takeOk (({ s with dict := Memory.writeAll s.dict 0 s.ops.se }.setReady).writeResults {})).Inv := by
  have hdict : Memory.HoldsDictionary (Memory.writeAll s.dict 0 s.ops.se) := by
    rw [h.unloaded hr]
    exact Memory.writeAll_holdsDictionary _ hl hn
  exact {
    idle := rfl
    status := legalStatus_setReady s.status h.status
    memory := hdict.wf
    loaded := fun _ => hdict
    unloaded := fun hunready => absurd hunready (by simp) }

/-- An idle engine with STATUS 0 and nothing in its dictionary meets the invariant. -/
theorem State.Inv.of_cleared {s : State} (hph : s.ph = .idle) (hstatus : s.status = 0#8)
    (hdict : s.dict = []) : s.Inv where
  idle := hph
  status := by rw [hstatus]; decide
  memory := by rw [hdict]; decide
  loaded hr := by rw [State.dictReady, hstatus] at hr; exact absurd hr (by decide)
  unloaded _ := hdict

/-- Settles O37. A step keeps STATUS and the dictionary, or loads a checked list into the empty memory,
or latches a violation; and what a reset event leaves is a cleared engine. -/
theorem everyStepKeepsInvariant : Obligations.EveryStepKeepsInvariant := by
  refine ⟨fun s t hinv hstep => ?_, fun s st sc => .of_cleared rfl rfl rfl⟩
  rcases step_status_cases hstep with ⟨hstatus, hdict⟩ | ⟨-, hr, hl, hn, rfl⟩ | ⟨-, v, rfl⟩
  · exact hinv.of_kept (step_ph hstep) hstatus hdict
  · exact hinv.after_load hr hl hn
  · exact hinv.after_takeFault v

/-- Settles O38. The reset state is a cleared engine. -/
theorem resetMeetsInvariant : Obligations.ResetMeetsInvariant :=
  ⟨.of_cleared rfl rfl rfl, rfl, rfl, rfl⟩

/-! ### Every transaction ends -/

/-- An illegal byte always answers a next state (60_exceptions.md R111). -/
theorem performIllegal_next (s : State) : ∃ t, performIllegal s = .next t := by
  unfold performIllegal
  cases hf : s.faulted with
  | true => exact ⟨_, perform_faulted hf _⟩
  | false => exact ⟨_, perform_violation hf _⟩

/-- A step answers a next state, or stops on an unwritten entry of a dictionary marked ready. -/
theorem step_next_or_unwritten (s : State) : (∃ t, step s = .next t) ∨
    (step s = .fault .dictEntryUnwritten ∧ s.dictReady = true ∧ ¬ s.dict.HoldsDictionary) := by
  cases hdecode : decode s.ops.cmd with
  | ok i => rw [step_of_decode hdecode]; exact exec_next_or_unwritten i s
  | error r => rw [step_of_decode_error hdecode]; exact .inl (performIllegal_next s)

/-- Settles O39. The one stop of the model asks a dictionary that is marked ready and is not complete,
which the invariant excludes; and that stop is not the overrun of the sequencer. -/
theorem everyTransactionEnds : Obligations.EveryTransactionEnds := by
  refine ⟨fun s hinv => ?_, fun s hoverrun => ?_⟩
  · exact (step_next_or_unwritten s).resolve_right fun ⟨_, hr, hincomplete⟩ =>
      hincomplete (hinv.loaded hr)
  · rcases step_next_or_unwritten s with ⟨t, hnext⟩ | ⟨hstop, -⟩
    · rw [hnext] at hoverrun; cases hoverrun
    · rw [hstop] at hoverrun; cases hoverrun

end Sys2Proof.Machine

namespace Sys2Proof.Machine

/-! ## The command byte (30_encoding.md R45, R46, R52) -/

/-- Settles O1. Each byte is split into its two nibbles and looked up. -/
theorem opcodeMapDecodes : Obligations.OpcodeMapDecodes := by
  unfold Obligations.OpcodeMapDecodes
  decide

/-- The encoding statements of Laws/PerInstr.lean, as one. -/
theorem encoding_statement (i : Instr) : Laws.Encoding.Statement i := by
  cases i
  exacts [Laws.Encoding.sysRdst, Laws.Encoding.dictLoad, Laws.Encoding.bvAppend, Laws.Encoding.bvPopf,
    Laws.Encoding.bvPopb, Laws.Encoding.bvPadl, Laws.Encoding.bbB2bits, Laws.Encoding.bbBits2b,
    Laws.Encoding.ckExtract, Laws.Encoding.ckCompute, Laws.Encoding.ckSign, Laws.Encoding.ckValidate,
    Laws.Encoding.mnChklen, Laws.Encoding.mnChkwc, Laws.Encoding.mnC2i, Laws.Encoding.mnI2c,
    Laws.Encoding.dictWord, Laws.Encoding.dictIndex, Laws.Encoding.mnEncode, Laws.Encoding.mnDecode]

/-- No second byte decodes to a command. -/
theorem encode_of_decode {b : Byte} {i : Instr} (h : decode b = .ok i) : encode i = b := by
  obtain ⟨-, -, honly, -⟩ := encoding_statement i
  exact (honly b h).symm

/-- Settles O2. Each command's byte decodes to it, and no second byte does. -/
theorem decodeEncodeAgree : Obligations.DecodeEncodeAgree :=
  ⟨fun i _ => decode_encode i, fun _ _ => encode_of_decode⟩

/-- Presenting a command by its number puts its byte on CMD and touches nothing else. -/
theorem withFetchWord_encode (s : State) (i : Instr) :
    s.withFetchWord 8 (encode i).toNat = { s with ops := { s.ops with cmd := encode i } } := by
  rw [State.withFetchWord, Nat.mod_eq_of_lt (encode i).isLt, BitVec.ofNat_toNat, BitVec.setWidth_eq]

/-- Settles O3. The byte that presenting leaves on CMD decodes to its command. -/
theorem stepRunsDecodedCommand : Obligations.StepRunsDecodedCommand := by
  refine ⟨fun s i _ hdecode => step_of_decode hdecode, fun s i => ⟨withFetchWord_encode s i, ?_⟩⟩
  rw [withFetchWord_encode]
  exact step_of_decode (decode_encode i)

/-- Settles O5. Each code is read off its table. -/
theorem codesAreThoseOfTheTables : Obligations.CodesAreThoseOfTheTables := by
  unfold Obligations.CodesAreThoseOfTheTables
  decide

/-- A byte that encodes no command is illegal. -/
theorem decode_of_not_encode {b : Byte} (h : ∀ i, encode i ≠ b) : decode b = .error .illegalCommand := by
  cases hdecode : decode b with
  | ok i => exact absurd (encode_of_decode hdecode) (h i)
  | error r => cases r; rfl

/-- While FAULT = 1 every byte but that of SYS.RDST is refused, whether it decodes or not. -/
theorem step_refused {s : State} (hf : s.faulted = true) (hcmd : s.ops.cmd ≠ encode .sysRdst) :
    step s = .next (refuseLatched s) := by
  cases hdecode : decode s.ops.cmd with
  | ok i =>
    have hi : i ≠ .sysRdst := by
      rintro rfl
      exact hcmd (encode_of_decode hdecode).symm
    rw [step_of_decode hdecode, exec_eq_perform i s hi, perform_faulted hf]
  | error r => rw [step_of_decode_error hdecode, performIllegal, perform_faulted hf]

/-- Settles O4. A byte outside the list encodes no command; the latch test comes before the decoder's
verdict shows; and SYS.RDST, which passes by it, answers the number that STATUS is. -/
theorem illegalBytesFaultAndLatchRefuses : Obligations.IllegalBytesFaultAndLatchRefuses := by
  refine ⟨fun s hf hcmd => ?_, fun s hf hcmd => ?_, fun s hf hcmd => ?_⟩
  · have hillegal := decode_of_not_encode (b := s.ops.cmd) fun i hi => hcmd (hi ▸ by cases i <;> decide)
    exact ⟨_, by rw [step_of_decode_error hillegal, performIllegal, perform_violation hf],
      takeFault_ends s _⟩
  · exact ⟨_, step_refused hf hcmd, refuseLatched_ends s⟩
  · have hdecode : decode s.ops.cmd = .ok .sysRdst := hcmd ▸ decode_encode .sysRdst
    obtain ⟨t, hexec, hok⟩ := exec_sysRdst_ends s
    refine ⟨t, _, by rw [step_of_decode hdecode, hexec], hok, ?_⟩
    rw [readStatus_setWidth_toNat, hf, Bool.toNat_true, Nat.mul_one]

end Sys2Proof.Machine

namespace Sys2Proof.Machine

/-! ## What every step keeps (10_state.md R11 to R15, R19; 30_encoding.md R47) -/

/-- Settles O43. The five ends of `exec_cases`: the refusal asks a faulted engine, the two Oks write the
ports of the row, and the failures are of the row. -/
theorem outcomesAreThoseOfTheTable : Obligations.OutcomesAreThoseOfTheTable := by
  intro i s t hexec hlatch
  rcases exec_cases hexec with ⟨hi, hf, -⟩ |
    ⟨-, ⟨r, hshape, -, rfl⟩ | ⟨rfl, -, -, -, rfl⟩ | ⟨e, he, rfl⟩ | ⟨v, hv, rfl⟩⟩
  · exact absurd hf (by simp [hlatch hi])
  · exact .inl ⟨rfl, hshape⟩
  · exact .inl ⟨rfl, rfl⟩
  · exact .inr (.inl ⟨e, he, takeError_ends s e⟩)
  · exact .inr (.inr ⟨v, hv, takeFault_ends s v⟩)

/-- Settles O44. ST is 0, or the transaction ended in one of the three failing ends, whose codes are
15, those of the typed errors, and 15. -/
theorem statusCodesAreLegal : Obligations.StatusCodesAreLegal := by
  intro s t hstep
  by_cases hst : t.st = 0#4
  · rw [hst]; rfl
  · rcases step_failure_cases hstep hst with ⟨-, hend⟩ | ⟨e, hend⟩ | ⟨-, v, hend⟩
    · rw [hend.st]; rfl
    · rw [hend.st]; exact legalSt_errorCode e
    · rw [hend.st]; rfl

/-- Settles O46. No command writes an operand port, nor does the answer to an illegal byte. -/
theorem operandPortsNeverChange : Obligations.OperandPortsNeverChange := by
  intro s t hstep
  rcases step_cases hstep with ⟨i, -, hexec⟩ | ⟨-, ⟨-, rfl⟩ | ⟨-, rfl⟩⟩
  · exact exec_ops hexec
  · rfl
  · rfl

/-- Settles O47. STATUS is kept; or the load sets DICT_READY and leaves FAULT; or a violation sets FAULT
and leaves DICT_READY. -/
theorem statusBitsChangeOnlyAsStated : Obligations.StatusBitsChangeOnlyAsStated := by
  refine ⟨fun s t hstep => ?_, fun s st sc => ⟨afterReset_faulted s st sc, afterReset_dictReady s st sc⟩⟩
  rcases step_status_cases hstep with ⟨hstatus, -⟩ | ⟨hdecode, -, -, -, rfl⟩ | ⟨-, v, rfl⟩
  · exact ⟨fun hne => absurd (congrArg statusFault hstatus) hne,
      fun hne => absurd (congrArg statusReady hstatus) hne⟩
  · exact ⟨fun hne => absurd (setReady_faulted _) hne, fun _ => ⟨setReady_dictReady _, rfl, hdecode⟩⟩
  · exact ⟨fun _ => ⟨takeFault_faulted s v, rfl⟩, fun hne => absurd (takeFault_dictReady s v) hne⟩

/-- Settles O48. Of the ends of a command only the load's writes the dictionary, and a ready dictionary
refuses the load. -/
theorem dictionaryWrittenOnlyByLoad : Obligations.DictionaryWrittenOnlyByLoad := by
  refine ⟨fun i s t hi hexec idx => ?_, fun s t hr hstep => step_of_ready hr hstep⟩
  rcases exec_status_cases hexec with ⟨-, hdict⟩ | ⟨hload, -⟩ | ⟨-, v, rfl⟩
  · rw [hdict]
  · exact absurd hload hi
  · rfl

/-- Settles O49. The latch outlasts every run, by induction on what the host presents. -/
theorem faultLatchIsSticky : Obligations.FaultLatchIsSticky :=
  fun _ _ _ hf hrun => session_present_of_faulted hf hrun

/-- A ready dictionary outlasts a run: without a reset it stays as it is (10_state.md R19, R21). -/
theorem session_present_of_ready {ps : List Operands} {s t : State} (hr : s.dictReady = true)
    (h : session (ps.map HostEvent.present) s = .next t) : t.dictReady = true ∧ t.dict = s.dict := by
  induction ps generalizing s with
  | nil =>
    obtain rfl : s = t := Host.Outcome.next.inj h
    exact ⟨hr, rfl⟩
  | cons p ps ih =>
    obtain ⟨u, hstep, hrest⟩ := session_cons_next h
    obtain ⟨hready, hdict⟩ : u.dictReady = true ∧ u.dict = s.dict :=
      step_of_ready (s := { s with ops := p }) hr hstep
    obtain ⟨hready', hdict'⟩ := ih hready hrest
    exact ⟨hready', hdict'.trans hdict⟩

/-- Settles O50. So does a ready dictionary. -/
theorem dictionaryImmutableOnceReady : Obligations.DictionaryImmutableOnceReady :=
  fun _ _ _ hr hrun => session_present_of_ready hr hrun

/-- Settles O51. Each field of the state after reset is read off. -/
theorem resetClearsTheEngine : Obligations.ResetClearsTheEngine :=
  fun _ _ _ => ⟨rfl, rfl, rfl, rfl⟩

/-- Settles O42. Keeping the listed ports twice keeps them, so the two transactions show the same. -/
theorem unlistedPortsDoNotMatter : Obligations.UnlistedPortsDoNotMatter := by
  intro i s
  have hshows : Txn.shows (commandOf i s) =
      Txn.shows (commandOf i { s with ops := Operands.listed i s.ops }) :=
    shows_command i _ _ (listed_listed i s.ops).symm rfl rfl
  exact observable_exec i _ _ hshows rfl rfl

end Sys2Proof.Machine

namespace Sys2Proof.Machine

/-! ## Boot (70_reset_and_hazards.md R126) -/

/-- A run goes on from where its first event leads. -/
theorem session_cons_of_next {e : HostEvent} {es : List HostEvent} {s u : State}
    (h : deliver e s = .next u) : session (e :: es) s = session es u := by
  rw [session, h]

/-- DICT.LOAD of a checked list on a cleared engine: STATUS is 0x01, and the dictionary is the list. -/
theorem deliver_load_of_cleared {s : State} {p : Operands} (hstatus : s.status = 0x00#8)
    (hdict : s.dict = []) (hcmd : decode p.cmd = .ok .dictLoad) (hl : p.se.length = 2048)
    (hn : p.se.Nodup) :
    ∃ t, deliver (.present p) s = .next t ∧ t.status = 0x01#8 ∧ t.dict = Memory.writeAll [] 0 p.se := by
  have hf : s.faulted = false := by rw [State.faulted, hstatus]; decide
  have hr : s.dictReady = false := by rw [State.dictReady, hstatus]; decide
  refine ⟨_, (step_of_decode hcmd).trans (exec_dictLoad_of_valid hf hr hl hn), ?_, ?_⟩
  · show statusWord (statusReason s.status) (statusFault s.status) true = 0x01#8
    rw [hstatus]; decide
  · show Memory.writeAll s.dict 0 p.se = _
    rw [hdict]

/-- SYS.RDST on a loaded engine answers 1, which is STATUS zero-extended, and keeps STATUS and the
dictionary (44_dictionary_system.md R100). -/
theorem deliver_readStatus_of_loaded {s : State} {p : Operands} (hstatus : s.status = 0x01#8)
    (hcmd : decode p.cmd = .ok .sysRdst) :
    ∃ t, deliver (.present p) s = .next t ∧ t.st = 0#4 ∧ t.res = { rn := some 1#16 } ∧
      t.status = 0x01#8 ∧ t.dict = s.dict := by
  obtain ⟨t, hexec, hok⟩ := exec_sysRdst_ends { s with ops := p }
  have hword : (readStatus { s with ops := p }).setWidth 16 = 1#16 := by
    rw [readStatus, hstatus]; decide
  exact ⟨t, (step_of_decode hcmd).trans hexec, hok.st, by rw [hok.res, hword],
    hok.status.trans hstatus, hok.dict⟩

/-- Settles O52. Reset clears the engine, the load makes STATUS 0x01 and the dictionary the list, and
SYS.RDST answers STATUS and keeps both. -/
theorem bootReachesReady : Obligations.BootReachesReady := by
  intro s l hl hn
  obtain ⟨u, hload, hstatus, hlist⟩ := deliver_load_of_cleared (s := s.platformReset)
    (p := { noOperands with cmd := 0x01#8, se := l }) rfl rfl (decode_encode .dictLoad) hl hn
  obtain ⟨t, hread, hst, hres, htstatus, hsame⟩ := deliver_readStatus_of_loaded
    (p := { noOperands with cmd := 0x00#8 }) hstatus (decode_encode .sysRdst)
  have hdict : t.dict = Memory.writeAll [] 0 l := hsame.trans hlist
  refine ⟨t, ?_, hst, hres, ?_, ?_, ?_, fun idx hidx => ?_⟩
  · rw [session_cons_of_next rfl, session_cons_of_next hload, session_cons_of_next hread, session]
  · rw [State.faulted, htstatus]; decide
  · rw [State.dictReady, htstatus]; decide
  · rw [hdict]; exact Memory.writeAll_holdsDictionary l hl hn
  · rw [hdict]; exact Memory.read_writeAll_inside [] (hl.symm ▸ hidx)

end Sys2Proof.Machine

namespace Sys2Proof.Machine

/-! ## Commands that undo each other, as the host issues them -/

/-! ### DICT.WORD and DICT.INDEX (20_memory.md R31) -/

/-- An index that holds a word is answered with it. -/
theorem issue_dictWord_of_read {s : State} {n : BitVec 16} {w : Word} (hf : s.faulted = false)
    (hr : s.dictReady = true) (hn : n.toNat < 2048) (hread : Memory.read s.dict n.toNat = some w) :
    ∃ t, issue .dictWord { noOperands with n := n } (fun r => r.rwd) s = .done w t ∧
      t.status = s.status ∧ t.dict = s.dict :=
  issue_ok (by decide) (by decide) hf
    (by rw [commandOf, dictWord_of_ready ((present_dictReady s _ _).trans hr), present_ops,
      present_dict, readEntry_of_read hn hread, Txn.bind_ok]) rfl

/-- A word that the dictionary holds is answered with its index. -/
theorem issue_dictIndex_of_find {s : State} {w : Word} {idx : Nat} (hf : s.faulted = false)
    (hr : s.dictReady = true) (hfind : Memory.find s.dict w = some idx) :
    ∃ t, issue .dictIndex { noOperands with wd := w } (fun r => r.rn) s = .done (numberRn idx) t ∧
      t.status = s.status ∧ t.dict = s.dict :=
  issue_ok (by decide) (by decide) hf
    (by rw [commandOf, dictIndex_of_ready ((present_dictReady s _ _).trans hr), present_ops,
      present_dict, findEntry_of_some hfind, Txn.bind_ok]) rfl

/-- Settles O11. Every index below 2048 of a complete dictionary holds a word, and there the two lookups
are inverse. -/
theorem indexOfWordIsIndex : Obligations.IndexOfWordIsIndex := by
  intro s n hinv hf hr hn
  have hdict := hinv.loaded hr
  obtain ⟨w, hread⟩ := hdict.read_some hn
  obtain ⟨t, hword, hstatus, hsame⟩ := issue_dictWord_of_read hf hr hn hread
  have hfind : Memory.find t.dict w = some n.toNat := hsame ▸ hdict.find_iff_read.mpr hread
  obtain ⟨u, hindex, -⟩ :=
    issue_dictIndex_of_find (faulted_of_status hstatus hf) (ready_of_status hstatus hr) hfind
  have hnumber : numberRn n.toNat = n := BitVec.eq_of_toNat_eq (numberRn_toNat_of_lt n.isLt)
  exact ⟨w, t, u, hword, hnumber ▸ hindex⟩

/-! ### BV.APPEND, BV.PADL and the pops (40_bitvector.md R65) -/

/-- Popping the length of the front part answers both parts. -/
theorem issue_bvPopf_append {s : State} {a b : Bits} {n : BitVec 16} (hf : s.faulted = false)
    (hn : n.toNat = a.length) :
    ∃ t, issue .bvPopf { noOperands with va := a ++ b, n := n } readPair s = .done (a, b) t := by
  obtain ⟨t, hissue, -⟩ := issue_ok (i := .bvPopf) (p := { noOperands with va := a ++ b, n := n })
    (f := readPair) (by decide) (by decide) hf
    (by rw [commandOf, present_ops, hn, popFront_append, Txn.bind_ok]) rfl
  exact ⟨t, hissue⟩

/-- Popping the length of the back part answers both parts. -/
theorem issue_bvPopb_append {s : State} {a b : Bits} {n : BitVec 16} (hf : s.faulted = false)
    (hn : n.toNat = b.length) :
    ∃ t, issue .bvPopb { noOperands with va := a ++ b, n := n } readPair s = .done (a, b) t := by
  obtain ⟨t, hissue, -⟩ := issue_ok (i := .bvPopb) (p := { noOperands with va := a ++ b, n := n })
    (f := readPair) (by decide) (by decide) hf
    (by rw [commandOf, present_ops, hn, popBack_append, Txn.bind_ok]) rfl
  exact ⟨t, hissue⟩

/-- An answer of BV.APPEND is the whole concatenation. -/
theorem issue_bvAppend_done {s t : State} {a b v : Bits} (hf : s.faulted = false)
    (h : issue .bvAppend { noOperands with va := a, vb := b } (fun r => r.ra) s = .done v t) :
    v = a ++ b := by
  obtain ⟨u, hcommand, hra, -⟩ := issue_done (by decide) (by decide) hf h
  obtain ⟨r, hfit, hu⟩ := Txn.bind_eq_ok.mp hcommand
  cases hu
  cases hra
  exact eq_of_fitBits_ok hfit

/-- An answer of BV.PADL is the zeros and the whole vector. -/
theorem issue_bvPadl_done {s t : State} {v p : Bits} {n : BitVec 16} (hf : s.faulted = false)
    (h : issue .bvPadl { noOperands with va := v, n := n } (fun r => r.ra) s = .done p t) :
    p = zeros (n.toNat - v.length) ++ v := by
  obtain ⟨u, hcommand, hra, -⟩ := issue_done (by decide) (by decide) hf h
  obtain ⟨r, hpad, hu⟩ := Txn.bind_eq_ok.mp hcommand
  cases hu
  cases hra
  rcases padLeft_cases v n.toNat with ⟨r', hr', rfl⟩ | ⟨-, -, hover⟩
  · exact Txn.ok.inj (hpad.symm.trans hr')
  · exact absurd (hpad.symm.trans hover) (by simp)

/-- Settles O16. An answer of the first command is a concatenation whose parts have lengths that N
carries, and a pop by the length of a part takes it apart again. -/
theorem popsUndoAppendAndPad : Obligations.PopsUndoAppendAndPad := by
  refine ⟨fun s t a b v hf ha hb happend => ?_, fun s t v p n hf hle hpad => ?_⟩
  · have hft := faulted_of_issue_done (by decide) (by decide) hf happend
    obtain rfl := issue_bvAppend_done hf happend
    exact ⟨issue_bvPopf_append hft (numberRn_toNat_of_lt (by omega)),
      issue_bvPopb_append hft (numberRn_toNat_of_lt (by omega))⟩
  · have hft := faulted_of_issue_done (by decide) (by decide) hf hpad
    obtain rfl := issue_bvPadl_done hf hpad
    exact issue_bvPopb_append hft (numberRn_toNat_of_lt (hle.trans_lt n.isLt))

end Sys2Proof.Machine

namespace Sys2Proof.Machine

/-! ## Results and their ports (10_state.md R12; 30_encoding.md R51) -/

/-- A command whose one result has at most 264 bits ends Ok under every legal BV_CAP. -/
theorem exec_fitBits_ok_of_le {i : Instr} {s : State} {v : Bits} (hi : i ≠ .sysRdst)
    (hf : s.faulted = false) (hle : v.length ≤ 264)
    (h : commandOf i s = (fitBits Config.env v).bind fun r => .ok (s.writeResults { ra := some r })) :
    ∃ t, exec i s = .next t ∧ t.st = 0#4 ∧ t.res.ra ≠ none := by
  have hfits : Caps.holds Config.env.caps.bv v.length = true := holds_bv_of_le _ _ hle
  obtain ⟨t, hexec, hends⟩ := exec_fitBits_ends hi hf h
  rw [if_pos hfits] at hends
  exact ⟨t, hexec, hends.st, by simp [hends.res]⟩

/-- The length of the signed bits, the checksum width 8 len div 32 written as len div 4 (42_checksum.md
R77). -/
theorem signedBits_length_quarter (e : ByteSeq) :
    (signedBits e).length = 8 * e.length + min (e.length / 4) 8 := by
  rw [signedBits_length, show 8 * e.length / 32 = e.length / 4 from Nat.mul_div_mul_left _ 4 (by decide)]

/-- Settles O17. Each of the four is `fitBits` of its result, but for BV.PADL of a vector that has reached
its target, which answers the vector. -/
theorem resultsUpTo264BitsNeverOverflow : Obligations.ResultsUpTo264BitsNeverOverflow := by
  refine fun s hf => ⟨fun hlen => ?_, fun hn => ?_, fun hlen => ?_, fun hlen => ?_⟩
  · exact exec_fitBits_ok_of_le (v := s.ops.va ++ s.ops.vb) (by decide) hf
      (by rwa [List.length_append]) rfl
  · rcases le_or_gt s.ops.n.toNat s.ops.va.length with hle | hlt
    · obtain ⟨t, hexec, hok⟩ := exec_ends_ok (i := .bvPadl) (by decide) hf
        (by rw [commandOf, padLeft_of_le hle, Txn.bind_ok])
      exact ⟨t, hexec, hok.st, by simp [hok.res]⟩
    · exact exec_fitBits_ok_of_le (v := zeros (s.ops.n.toNat - s.ops.va.length) ++ s.ops.va) (by decide) hf
        (by rwa [List.length_append, zeros_length, Nat.sub_add_cancel hlt.le])
        (by rw [commandOf, padLeft_of_lt hlt])
  · exact exec_fitBits_ok_of_le (v := bytesToBits s.ops.by_) (by decide) hf
      (by rwa [bytesToBits_length]) rfl
  · exact exec_fitBits_ok_of_le (v := signedBits s.ops.by_) (by decide) hf
      (by rwa [signedBits_length_quarter]) (by rw [commandOf, sign_env])

/-- The results of a command are those it came to, and none if it did not come to Ok. -/
theorem exec_res_cases {i : Instr} {s t : State} (h : exec i s = .next t) :
    t.res = {} ∨ ∃ u, commandOf i s = .ok u ∧ t.res = u.res := by
  by_cases hi : i = .sysRdst
  · subst hi
    rw [exec_sysRdst] at h
    rcases settle_next.mp h with ⟨u, hu, rfl⟩ | ⟨e, -, rfl⟩ | ⟨v, -, rfl⟩
    · exact .inr ⟨u, hu, rfl⟩
    · exact .inl rfl
    · exact .inl rfl
  · rw [exec_eq_perform i s hi] at h
    rcases perform_next.mp h with ⟨-, rfl⟩ | ⟨-, ⟨u, hu, rfl⟩ | ⟨e, -, rfl⟩ | ⟨v, -, rfl⟩⟩
    · exact .inl rfl
    · exact .inr ⟨u, hu, rfl⟩
    · exact .inl rfl
    · exact .inl rfl

theorem resultsFit_of_none {s : State} (h : s.res = {}) : s.resultsFit := by
  rw [State.resultsFit, h]
  exact ⟨rfl, rfl, rfl, rfl⟩

/-- If the operands fit their ports, so do the results of a step. -/
theorem step_resultsFit {s t : State} (ho : s.operandsFit) (h : step s = .next t) : t.resultsFit := by
  rcases step_cases h with ⟨i, -, hexec⟩ | ⟨-, ⟨-, rfl⟩ | ⟨-, rfl⟩⟩
  · rcases exec_res_cases hexec with hnone | ⟨u, hu, hres⟩
    · exact resultsFit_of_none hnone
    · have hfit := commandOf_fits ho hu
      rwa [State.resultsFit, ← hres] at hfit
  · exact resultsFit_of_none rfl
  · exact resultsFit_of_none rfl

/-- PADL of a vector that fits is `fitBits` of the zeros and the vector, also where no zeros are due. -/
theorem padLeft_of_holds {v : Bits} {target : Nat} (h : Caps.holds Config.env.caps.bv v.length = true) :
    padLeft Config.env v target = fitBits Config.env (zeros (target - v.length) ++ v) := by
  rcases le_or_gt target v.length with hle | hlt
  · rw [padLeft_of_le hle, Nat.sub_eq_zero_of_le hle]
    exact (fitBits_of_holds h).symm
  · exact padLeft_of_lt hlt

/-- The commands whose result can be longer than its port are `fitBits` of a result of full length. -/
theorem commandOf_of_fullLength {i : Instr} {s : State} {len : Nat} (ho : s.operandsFit)
    (h : fullLength i s.ops = some len) :
    i ≠ .sysRdst ∧ ∃ v : Bits, v.length = len ∧
      commandOf i s = (fitBits Config.env v).bind fun r => .ok (s.writeResults { ra := some r }) := by
  have hva : Caps.holds Config.env.caps.bv s.ops.va.length = true := by
    simp only [State.operandsFit, Operands.wellFormed, Bool.and_eq_true] at ho
    obtain ⟨⟨⟨hva, -⟩, -⟩, -⟩ := ho
    exact hva
  cases i
  case bvAppend =>
    obtain rfl := Option.some.inj h
    exact ⟨by decide, s.ops.va ++ s.ops.vb, List.length_append, rfl⟩
  case bvPadl =>
    obtain rfl := Option.some.inj h
    refine ⟨by decide, zeros (s.ops.n.toNat - s.ops.va.length) ++ s.ops.va, ?_, ?_⟩
    · rw [List.length_append, zeros_length]; omega
    · rw [commandOf, padLeft_of_holds hva]
  case bbB2bits =>
    obtain rfl := Option.some.inj h
    exact ⟨by decide, bytesToBits s.ops.by_, bytesToBits_length _, rfl⟩
  case ckSign =>
    obtain rfl := Option.some.inj h
    exact ⟨by decide, signedBits s.ops.by_, signedBits_length_quarter _, by rw [commandOf, sign_env]⟩
  all_goals exact nomatch h

/-- Settles O40. No step writes an operand port, and the results of a step fit; a command with a full
length is `fitBits` of a result of that length. -/
theorem resultsFitTheirPorts : Obligations.ResultsFitTheirPorts := by
  refine ⟨fun s t ho hstep => ⟨?_, step_resultsFit ho hstep⟩, fun s i len ho hf hlen => ?_⟩
  · rwa [State.operandsFit, operandPortsNeverChange s t hstep]
  · obtain ⟨hi, v, rfl, hcommand⟩ := commandOf_of_fullLength ho hlen
    obtain ⟨t, hexec, hends⟩ := exec_fitBits_ends hi hf hcommand
    refine ⟨t, hexec, ?_⟩
    split at hends
    case isTrue hfits => rw [if_pos hfits]; exact ⟨v, hends, rfl⟩
    case isFalse hover => rwa [if_neg hover]

end Sys2Proof.Machine

namespace Sys2Proof.Machine

/-! ## Composite commands and their expansions (43_mnemonic.md R93) -/

section HostReply

variable {α β : Type}

@[simp] theorem HostReply.bind_done (a : α) (s : State) (f : α → State → HostReply β) :
    (HostReply.done a s).bind f = f a s := rfl
@[simp] theorem HostReply.bind_failed (code : BitVec 4) (s : State) (f : α → State → HostReply β) :
    (HostReply.failed code s).bind f = .failed code s := rfl
@[simp] theorem HostReply.verdict_done (a : α) (s : State) :
    (HostReply.done a s).verdict = some (.ok a) := rfl
@[simp] theorem HostReply.verdict_failed (code : BitVec 4) (s : State) :
    (HostReply.failed code s : HostReply α).verdict = some (.error code) := rfl

end HostReply

/-! ### The parts of the checksum commands -/

/-- CK.EXTRACT of a digest's 32 bytes is answered with the last bits of the first. -/
theorem issue_ckExtract_digest {s : State} {g : Digest} {n : BitVec 16} {k : Nat} (hf : s.faulted = false)
    (hn : n.toNat = k) :
    ∃ t, issue .ckExtract { noOperands with by_ := g.toList, n := n } (fun r => r.ra) s =
      .done (lastBits g[0] k) t := by
  obtain ⟨t, hissue, -⟩ := issue_ok (i := .ckExtract)
    (p := { noOperands with by_ := g.toList, n := n }) (f := fun r => r.ra) (by decide) (by decide) hf
    (by rw [commandOf, present_ops, hn, extract_digest, Txn.bind_ok]) rfl
  exact ⟨t, hissue⟩

/-- What a host learns from a command whose one result is `v` on RA. -/
theorem issue_fitBits_verdict {i : Instr} {p : Operands} {s : State} {v : Bits} (hi : i ≠ .sysRdst)
    (hd : i ≠ .dictLoad) (hf : s.faulted = false)
    (h : commandOf i (s.present i p) =
      (fitBits Config.env v).bind fun r => .ok ((s.present i p).writeResults { ra := some r })) :
    (issue i p (fun r => r.ra) s).verdict =
      if Caps.holds Config.env.caps.bv v.length = true then some (.ok v) else some (.error 15#4) := by
  rcases fitBits_cases v with ⟨hfits, hv⟩ | ⟨hover, hv⟩
  · rw [hv, Txn.bind_ok] at h
    obtain ⟨t, hissue, -⟩ := issue_ok (f := fun r => r.ra) hi hd hf h rfl
    rw [hissue, HostReply.verdict_done, if_pos hfits]
  · rw [hv, Txn.bind_violation] at h
    obtain ⟨t, hissue, -⟩ := issue_violation (f := fun r => r.ra) hi hf h
    rw [hissue, HostReply.verdict_failed, if_neg (by simp [hover])]

/-- The checksum width that a host puts on N is carried whole (42_checksum.md R76). -/
theorem toNat_checksumWidth {len : Nat} (h : len ≤ 65535) :
    (BitVec.ofNat 16 (8 * len / 32)).toNat = 8 * len / 32 :=
  numberRn_toNat_of_lt (by omega)

/-- CK.COMPUTE and its expansion both answer the last bits of the digest's first byte. -/
theorem hostCompute_verdict {s : State} {e : ByteSeq} (hf : s.faulted = false) (h : e.length ≤ 65535) :
    (hostCompute e (Config.digest e) s).verdict =
      (issue .ckCompute { noOperands with by_ := e } (fun r => r.ra) s).verdict := by
  obtain ⟨t, hextract⟩ := issue_ckExtract_digest (g := Config.digest e) hf (toNat_checksumWidth h)
  obtain ⟨u, hcompute, -⟩ := issue_ok (i := .ckCompute) (p := { noOperands with by_ := e })
    (f := fun r => r.ra) (by decide) (by decide) hf
    (by rw [commandOf, present_ops, compute_eq, Txn.bind_ok]) rfl
  rw [hostCompute, hextract, hcompute]
  rfl

/-- CK.SIGN and its expansion both answer the signed bits, if these fit. Where already the bits of the
bytes do not fit, the expansion overflows at BB.B2BITS. -/
theorem hostSign_verdict {s : State} {e : ByteSeq} (hf : s.faulted = false) (h : e.length ≤ 65535) :
    (hostSign e (Config.digest e) s).verdict =
      (issue .ckSign { noOperands with by_ := e } (fun r => r.ra) s).verdict := by
  have hsign := issue_fitBits_verdict (i := .ckSign) (p := { noOperands with by_ := e })
    (v := signedBits e) (by decide) (by decide) hf (by rw [commandOf, present_ops, sign_env])
  obtain ⟨t, hextract⟩ := issue_ckExtract_digest (g := Config.digest e) hf (toNat_checksumWidth h)
  have hft := faulted_of_issue_done (by decide) (by decide) hf hextract
  rw [hsign, hostSign, hextract, HostReply.bind_done]
  rcases fitBits_cases (bytesToBits e) with ⟨hfits, -⟩ | ⟨hover, hv⟩
  · obtain ⟨u, hbits, hstatus⟩ := issue_bbB2bits_of_holds hft hfits
    rw [hbits, HostReply.bind_done]
    exact issue_fitBits_verdict (i := .bvAppend) (v := signedBits e) (by decide) (by decide)
      (faulted_of_status hstatus hft) rfl
  · have hlonger : (bytesToBits e).length ≤ (signedBits e).length := by
      rw [signedBits, List.length_append]; exact Nat.le_add_right _ _
    have hsigned : Caps.holds Config.env.caps.bv (signedBits e).length ≠ true := fun hfits =>
      Bool.false_ne_true (hover.symm.trans (holds_mono hfits hlonger))
    obtain ⟨u, hbits, -⟩ := issue_violation (i := .bbB2bits) (p := { noOperands with by_ := e })
      (f := fun r => r.ra) (by decide) hft
      (by rw [commandOf, present_ops, hv, Txn.bind_violation])
    rw [hbits, HostReply.bind_failed, HostReply.verdict_failed, if_neg hsigned]

/-! ### CK.VALIDATE -/

/-- What a host learns from CK.VALIDATE of the bits of whole bytes and a claimed checksum. -/
theorem issue_ckValidate_compares {s : State} {v : Bits} {d : ByteSeq} {claimed : Bits}
    (hf : s.faulted = false) (hv : bytesToBits d ++ claimed = v) (hclaimed : claimed.length = v.length / 32)
    (hle : v.length / 32 ≤ 8) :
    ∃ t, issue .ckValidate { noOperands with va := v } (fun _ => some ()) s =
      if lastBits (Config.digest d)[0] (v.length / 32) = claimed then .done () t
      else .failed (errorCode .invalidChecksum) t := by
  have hcompare := validate_bytes_append hv hclaimed rfl hle
  by_cases hsum : lastBits (Config.digest d)[0] (v.length / 32) = claimed
  · obtain ⟨t, hissue, -⟩ := issue_ok (i := .ckValidate) (p := { noOperands with va := v })
      (f := fun _ => some ()) (by decide) (by decide) hf
      (by rw [commandOf, present_ops, hcompare, decide_eq_true hsum, require_true, Txn.bind_ok]) rfl
    exact ⟨t, by rw [hissue, if_pos hsum]⟩
  · obtain ⟨t, hissue, -⟩ := issue_err (i := .ckValidate) (p := { noOperands with va := v })
      (f := fun _ => some ()) (by decide) hf
      (by rw [commandOf, present_ops, hcompare, decide_eq_false hsum, require_false, Txn.bind_err])
    exact ⟨t, by rw [hissue, if_neg hsum]⟩

/-- A host that pops the claimed checksum off a vector gets the data part and the claim. -/
theorem issue_bvPopb_claimed {s : State} {v data claimed : Bits} (hf : s.faulted = false)
    (hv : data ++ claimed = v) (hclaimed : claimed.length = v.length / 32) (hle : v.length / 32 ≤ 8) :
    ∃ t, issue .bvPopb { noOperands with va := v, n := BitVec.ofNat 16 (v.length / 32) } readPair s =
      .done (data, claimed) t := by
  have hn : (BitVec.ofNat 16 (v.length / 32)).toNat = claimed.length := by
    rw [hclaimed]; exact numberRn_toNat_of_lt (by omega)
  generalize BitVec.ofNat 16 (v.length / 32) = n at hn ⊢
  subst hv
  exact issue_bvPopb_append hf hn

/-- On whole bytes and a claimed checksum, the expansion of CK.VALIDATE makes its comparison. -/
theorem hostValidate_compares {s : State} {v : Bits} {d : ByteSeq} {claimed : Bits}
    (hf : s.faulted = false) (hv : bytesToBits d ++ claimed = v) (hclaimed : claimed.length = v.length / 32)
    (hle : v.length / 32 ≤ 8) :
    ∃ t, hostValidate Config.digest v s =
      if lastBits (Config.digest d)[0] (v.length / 32) = claimed then .done () t
      else .failed (errorCode .invalidChecksum) t := by
  obtain ⟨t₁, hpop⟩ := issue_bvPopb_claimed hf hv hclaimed hle
  have hf₁ := faulted_of_issue_done (by decide) (by decide) hf hpop
  obtain ⟨t₂, hbytes⟩ := issue_bbBits2b_of_ok hf₁ (bitsToBytes_bytesToBits d)
  have hf₂ := faulted_of_issue_done (by decide) (by decide) hf₁ hbytes
  obtain ⟨t₃, hextract⟩ := issue_ckExtract_digest (g := Config.digest d)
    (n := BitVec.ofNat 16 (v.length / 32)) hf₂ (numberRn_toNat_of_lt (by omega))
  refine ⟨t₃, ?_⟩
  rw [hostValidate, hpop, HostReply.bind_done, hbytes, HostReply.bind_done, hextract, HostReply.bind_done]

/-- A data part that is not whole bytes faults in the expansion at BB.BITS2B. -/
theorem hostValidate_of_odd {s : State} {v : Bits} (hf : s.faulted = false) (hle : v.length / 32 ≤ 8)
    (hodd : (v.length - v.length / 32) % 8 ≠ 0) :
    ∃ t, hostValidate Config.digest v s = .failed 15#4 t := by
  have hdata : (v.take (v.length - v.length / 32)).length = v.length - v.length / 32 :=
    List.length_take_of_le (Nat.sub_le _ _)
  obtain ⟨t, hpop⟩ := issue_bvPopb_claimed hf (List.take_append_drop (v.length - v.length / 32) v)
    (by rw [List.length_drop, Nat.sub_sub_self (Nat.div_le_self _ _)]) hle
  obtain ⟨u, hbytes, -⟩ := issue_violation (i := .bbBits2b)
    (p := { noOperands with va := v.take (v.length - v.length / 32) }) (f := fun r => r.rby) (by decide)
    (faulted_of_issue_done (by decide) (by decide) hf hpop)
    (by rw [commandOf, present_ops, bitsToBytes_of_odd (hdata.symm ▸ hodd), Txn.bind_violation])
  exact ⟨u, by rw [hostValidate, hpop, HostReply.bind_done, hbytes, HostReply.bind_failed]⟩

/-- CK.VALIDATE and its expansion, on a vector within the guard ChecksumWidth: both fault where the data
part is not whole bytes, and both make the same comparison where it is. -/
theorem hostValidate_verdict {s : State} {v : Bits} (hf : s.faulted = false) (h : v.length ≤ 287) :
    (hostValidate Config.digest v s).verdict =
      (issue .ckValidate { noOperands with va := v } (fun _ => some ()) s).verdict := by
  have hle : v.length / 32 ≤ 8 := by omega
  by_cases hwhole : (v.length - v.length / 32) % 8 = 0
  · obtain ⟨d, claimed, hv, hclaimed⟩ := exists_bytes_append_claimed hwhole
    obtain ⟨t, hhost⟩ := hostValidate_compares hf hv hclaimed hle
    obtain ⟨u, hissue⟩ := issue_ckValidate_compares hf hv hclaimed hle
    rw [hhost, hissue]
    split <;> rfl
  · obtain ⟨t, hhost⟩ := hostValidate_of_odd hf hle hwhole
    obtain ⟨u, hissue, -⟩ := issue_violation (i := .ckValidate) (p := { noOperands with va := v })
      (f := fun _ => some ()) (by decide) hf
      (by rw [commandOf, present_ops, validate_of_odd hle hwhole, Txn.bind_violation])
    rw [hhost, hissue]
    rfl

/-- Settles O36. Each expansion gives the host the verdict of its command. -/
theorem checksumCommandsEqualTheirParts : Obligations.ChecksumCommandsEqualTheirParts :=
  ⟨fun _ _ => hostCompute_verdict, fun _ _ => hostSign_verdict, fun _ _ => hostValidate_verdict⟩

/-! ### MN.ENCODE -/

/-- The expansion of MN.ENCODE stops at MN.CHKLEN on an entropy of any other length. -/
theorem hostEncode_of_invalid {s : State} {e : ByteSeq} (hf : s.faulted = false)
    (h : e.length ∉ [16, 20, 24, 28, 32]) :
    ∃ t, hostEncode e s = .failed (errorCode .invalidEntropyLength) t := by
  obtain ⟨t, hcheck, -⟩ := issue_err (i := .mnChklen) (p := { noOperands with by_ := e })
    (f := fun _ => some ()) (by decide) hf
    (by rw [commandOf, present_ops, checkLength_of_invalid h, Txn.bind_err])
  exact ⟨t, by rw [hostEncode, hcheck, HostReply.bind_failed]⟩

/-- On a valid entropy the expansion of MN.ENCODE answers the slicing of the signed bits. -/
theorem hostEncode_of_valid {s : State} {e : ByteSeq} {ws : Sentence} (hf : s.faulted = false)
    (hr : s.dictReady = true) (hdict : s.dict.HoldsDictionary) (hvalid : e.length ∈ [16, 20, 24, 28, 32])
    (hslice : sliceWords s.dict (3 * (e.length / 4)) (signedBits e) = .ok ws) :
    ∃ t, hostEncode e s = .done ws t := by
  have hlength := signedBits_length_of_valid hvalid
  have hsigned : sign Config.env e = .ok (signedBits e) := by
    rw [sign_env]
    refine fitBits_env_of_le ?_
    simp only [List.mem_cons, List.not_mem_nil, or_false] at hvalid
    omega
  obtain ⟨t₁, hcheck, hstatus₁, hsame₁⟩ := issue_ok (i := .mnChklen) (p := { noOperands with by_ := e })
    (f := fun _ => some ()) (by decide) (by decide) hf
    (by rw [commandOf, present_ops, checkLength_of_valid hvalid, Txn.bind_ok]) rfl
  obtain ⟨t₂, hsign, hstatus₂, hsame₂⟩ := issue_ok (i := .ckSign) (p := { noOperands with by_ := e })
    (f := fun r => r.ra) (by decide) (by decide) (faulted_of_status hstatus₁ hf)
    (by rw [commandOf, present_ops, hsigned, Txn.bind_ok]) rfl
  have hstatus := hstatus₂.trans hstatus₁
  have hsame := hsame₂.trans hsame₁
  obtain ⟨t, hloop⟩ := hostSlice_done t₂ (faulted_of_status hstatus hf) (ready_of_status hstatus hr)
    (hsame ▸ hdict) (3 * (e.length / 4)) (signedBits e) [] hlength ws (hsame ▸ hslice)
  refine ⟨t, ?_⟩
  rw [hostEncode, hcheck, HostReply.bind_done, hsign, HostReply.bind_done, wordCount_eq hvalid, hloop,
    List.nil_append]

/-- MN.ENCODE and its expansion: the same length error, or the same slicing. -/
theorem hostEncode_verdict {s : State} {e : ByteSeq} (hf : s.faulted = false) (hr : s.dictReady = true)
    (hdict : s.dict.HoldsDictionary) : (hostEncode e s).verdict =
      (issue .mnEncode { noOperands with by_ := e } (fun r => r.rse) s).verdict := by
  by_cases hvalid : e.length ∈ [16, 20, 24, 28, 32]
  · obtain ⟨ws, t, hslice, hissue, -⟩ := issue_mnEncode_of_valid hf hr hdict hvalid
    obtain ⟨u, hhost⟩ := hostEncode_of_valid hf hr hdict hvalid hslice
    rw [hhost, hissue]
    rfl
  · obtain ⟨t, hhost⟩ := hostEncode_of_invalid hf hvalid
    obtain ⟨u, hissue, -⟩ := issue_err (i := .mnEncode) (p := { noOperands with by_ := e })
      (f := fun r => r.rse) (e := .invalidEntropyLength) (by decide) hf (by
        rw [commandOf, encodeCommand, requireReady_ready ((present_dictReady s _ _).trans hr), Txn.bind_ok,
          encode_walk_invalid _ _ hvalid])
    rw [hhost, hissue]
    rfl

/-! ### MN.DECODE -/

/-- The expansion of MN.DECODE stops at MN.CHKWC on any other word count. -/
theorem hostDecode_of_count {s : State} {ws : Sentence} (hf : s.faulted = false)
    (h : ws.length ∉ [12, 15, 18, 21, 24]) :
    ∃ t, hostDecode ws s = .failed (errorCode .invalidMnemonicWordCount) t := by
  obtain ⟨t, hcheck, -⟩ := issue_err (i := .mnChkwc) (p := { noOperands with se := ws })
    (f := fun _ => some ()) (by decide) hf
    (by rw [commandOf, present_ops, checkWordCount_of_invalid h, Txn.bind_err])
  exact ⟨t, by rw [hostDecode, hcheck, HostReply.bind_failed]⟩

/-- The tail of the expansion of MN.DECODE, past the joining loop: CK.VALIDATE, BV.POPB, BB.BITS2B. -/
def hostUnpack (v : Bits) (s : State) : HostReply ByteSeq :=
  (issue .ckValidate { noOperands with va := v } (fun _ => some ()) s).bind fun _ s =>
  (issue .bvPopb { noOperands with va := v, n := BitVec.ofNat 16 (v.length / 32) } readPair s).bind
    fun split s => issue .bbBits2b { noOperands with va := split.1 } (fun r => r.rby) s

/-- Past the word count the expansion of MN.DECODE joins the chunks and unpacks them, or stops at
the first absent word. -/
theorem hostDecode_cases {s : State} {ws : Sentence} (hf : s.faulted = false) (hr : s.dictReady = true)
    (hdict : s.dict.HoldsDictionary) (hcount : ws.length ∈ [12, 15, 18, 21, 24]) :
    (∃ v t, joinChunks s.dict ws = .ok v ∧ t.faulted = false ∧ hostDecode ws s = hostUnpack v t) ∨
    (∃ t, joinChunks s.dict ws = .err .invalidWord ∧
      hostDecode ws s = .failed (errorCode .invalidWord) t) := by
  obtain ⟨t, hcheck, hstatus, hsame⟩ := issue_ok (i := .mnChkwc) (p := { noOperands with se := ws })
    (f := fun _ => some ()) (by decide) (by decide) hf
    (by rw [commandOf, present_ops, checkWordCount_of_valid hcount, Txn.bind_ok]) rfl
  have hft := faulted_of_status hstatus hf
  have hbits : ([] : Bits).length + 11 * ws.length ≤ 264 := by
    simp only [List.mem_cons, List.not_mem_nil, or_false] at hcount
    rw [List.length_nil]
    omega
  rcases hostJoin_cases t hft (ready_of_status hstatus hr) (hsame ▸ hdict) ws [] hbits with
    ⟨v, u, hjoin, hloop, hstatus', -⟩ | ⟨u, hjoin, hloop⟩
  · refine .inl ⟨v, u, hsame ▸ hjoin, faulted_of_status hstatus' hft, ?_⟩
    rw [hostDecode, hcheck, HostReply.bind_done, hloop, HostReply.bind_done, List.nil_append,
      hostUnpack]
  · refine .inr ⟨u, hsame ▸ hjoin, ?_⟩
    rw [hostDecode, hcheck, HostReply.bind_done, hloop, HostReply.bind_failed]
    rfl

/-- Unpacking the bits of whole bytes and a claimed checksum is the comparison, then the bytes. -/
theorem hostUnpack_verdict {s : State} {v : Bits} {d : ByteSeq} {claimed : Bits} (hf : s.faulted = false)
    (hv : bytesToBits d ++ claimed = v) (hclaimed : claimed.length = v.length / 32)
    (hle : v.length / 32 ≤ 8) :
    (hostUnpack v s).verdict =
      if lastBits (Config.digest d)[0] (v.length / 32) = claimed then some (.ok d)
      else some (.error (errorCode .invalidChecksum)) := by
  obtain ⟨t₁, hvalidate⟩ := issue_ckValidate_compares hf hv hclaimed hle
  rw [hostUnpack, hvalidate]
  split
  case isFalse => rfl
  case isTrue hsum =>
    rw [if_pos hsum] at hvalidate
    have hf₁ := faulted_of_issue_done (by decide) (by decide) hf hvalidate
    obtain ⟨t₂, hpop⟩ := issue_bvPopb_claimed hf₁ hv hclaimed hle
    obtain ⟨t₃, hbytes⟩ := issue_bbBits2b_of_ok (faulted_of_issue_done (by decide) (by decide) hf₁ hpop)
      (bitsToBytes_bytesToBits d)
    rw [HostReply.bind_done, hpop, HostReply.bind_done, hbytes, HostReply.verdict_done]

/-- What a host learns from MN.DECODE of words that join to `v`. -/
theorem issue_mnDecode_joined {s : State} {ws : Sentence} {v : Bits} (hf : s.faulted = false)
    (hr : s.dictReady = true) (hcount : ws.length ∈ [12, 15, 18, 21, 24])
    (hjoin : joinChunks s.dict ws = .ok v) :
    ∃ d claimed, bytesToBits d ++ claimed = v ∧ claimed.length = v.length / 32 ∧
      (issue .mnDecode { noOperands with se := ws } (fun r => r.rby) s).verdict =
        if lastBits (Config.digest d)[0] (v.length / 32) = claimed then some (.ok d)
        else some (.error (errorCode .invalidChecksum)) := by
  obtain ⟨d, claimed, hv, hclaimed, hmatch, hmismatch⟩ := commandOf_decode_joined
    (s := s.present .mnDecode { noOperands with se := ws }) hr hcount hjoin
  refine ⟨d, claimed, hv, hclaimed, ?_⟩
  split
  case isTrue hsum =>
    obtain ⟨u, hcommand, hres⟩ := hmatch hsum
    obtain ⟨t, hissue, -⟩ := issue_ok (i := .mnDecode) (f := fun r => r.rby) (by decide) (by decide) hf
      hcommand (by rw [hres])
    rw [hissue, HostReply.verdict_done]
  case isFalse hsum =>
    obtain ⟨t, hissue, -⟩ := issue_err (i := .mnDecode) (f := fun r => r.rby) (by decide) hf
      (hmismatch hsum)
    rw [hissue, HostReply.verdict_failed]

/-- MN.DECODE and its expansion: the same count error, the same absent word, or the same comparison of
the joined bits. -/
theorem hostDecode_verdict {s : State} {ws : Sentence} (hf : s.faulted = false) (hr : s.dictReady = true)
    (hdict : s.dict.HoldsDictionary) : (hostDecode ws s).verdict =
      (issue .mnDecode { noOperands with se := ws } (fun r => r.rby) s).verdict := by
  have hready : (s.present .mnDecode { noOperands with se := ws }).dictReady = true := hr
  by_cases hcount : ws.length ∈ [12, 15, 18, 21, 24]
  · rcases hostDecode_cases hf hr hdict hcount with ⟨v, t, hjoin, hft, hhost⟩ | ⟨t, hjoin, hhost⟩
    · obtain ⟨d, claimed, hv, hclaimed, hissue⟩ := issue_mnDecode_joined hf hr hcount hjoin
      have hlength := joinChunks_length hjoin
      have hle : v.length / 32 ≤ 8 := by
        simp only [List.mem_cons, List.not_mem_nil, or_false] at hcount
        omega
      rw [hhost, hissue, hostUnpack_verdict hft hv hclaimed hle]
    · obtain ⟨u, hissue, -⟩ := issue_err (i := .mnDecode) (p := { noOperands with se := ws })
        (f := fun r => r.rby) (by decide) hf (commandOf_decode_unjoined hready hcount hjoin)
      rw [hhost, hissue]
      rfl
  · obtain ⟨t, hhost⟩ := hostDecode_of_count hf hcount
    obtain ⟨u, hissue, -⟩ := issue_err (i := .mnDecode) (p := { noOperands with se := ws })
      (f := fun r => r.rby) (e := .invalidMnemonicWordCount) (by decide) hf
      (by rw [commandOf_decode_of_ready hready, decode_walk_count _ _ hcount])
    rw [hhost, hissue]
    rfl

/-- Settles O35. The invariant gives a ready engine its complete dictionary. -/
theorem compositesEqualTheirParts : Obligations.CompositesEqualTheirParts :=
  fun _ hinv hf hr => ⟨fun _ => hostEncode_verdict hf hr (hinv.loaded hr),
    fun _ => hostDecode_verdict hf hr (hinv.loaded hr)⟩

end Sys2Proof.Machine
